-- ==== Sys2Proof/Word.lean ====
section
/-! DEFINITION. The width of the core and the width-wrapping step (00_scope.md R7, R8, R9). -/

namespace Sys2Proof

/-- A register, a data or stack cell, or an instruction word: `W = 16` bits (R7, D1; R45, D2). Its value is
unsigned everywhere (R8). -/
abbrev Word := BitVec 16

/-- `wrap(v) = v mod 2^W`, taken in the integers, so that a negative intermediate wraps to a large unsigned
value (R9). -/
def wrap (v : Int) : Word := BitVec.ofInt 16 v

end Sys2Proof
end

