-- ==== Sys2Proof/Syntax.lean ====
section
/-! DEFINITION. The instructions: one constructor per row of spec/opcode_table.json (30_encoding.md R58, R59, R52). An
operand's type holds exactly the values its field can take, so every term is an instruction the encoding admits. -/

namespace Sys2Proof

/-- The general registers, in the order of their indices 0 to 3 (R13). `IP` and `SP` are not among them: no register
field selects them (R16, R19). -/
inductive Reg where
  /-- index 0; also the fixed comparison register of `JLT` -/
  | a
  /-- index 1 -/
  | b
  /-- index 2 -/
  | c
  /-- index 3 -/
  | d
  deriving DecidableEq, Repr

/-- The destination mode of `ATH`: which register field receives the result (R54, R70). -/
inductive Dest where
  /-- mode 0 -/
  | rs
  /-- mode 1 -/
  | rd
  deriving DecidableEq, Repr

/-- The direction of `SFT`, the value of its `rd` field: 0 is left, 1 to 3 are right (R55, C6). -/
inductive Dir where
  | left
  | right
  deriving DecidableEq, Repr

/-- The instructions. Only the fields an opcode uses are operands: words that differ in ignored bits alone are the same
instruction (R52, R53). -/
inductive Instr where
  /-- `CAL t` (R90) -/
  | cal (target : BitVec 10)
  /-- `RET` (R91) -/
  | ret
  /-- `MOV rd, rs` (R96) -/
  | mov (rd rs : Reg)
  /-- `LDV rd, v` (R97) -/
  | ldv (rd : Reg) (literal : BitVec 10)
  /-- `LDR rd, a` (R98) -/
  | ldr (rd : Reg) (address : BitVec 10)
  /-- `LDM rd, a`, a store (R99, C7) -/
  | ldm (rd : Reg) (address : BitVec 10)
  /-- `ATH rd, rs, ADD, mode` (R72) -/
  | athAdd (rd rs : Reg) (mode : Dest)
  /-- `ATH rd, rs, SUB, mode` (R73) -/
  | athSub (rd rs : Reg) (mode : Dest)
  /-- `ATH rd, rs, MUL, mode` (R74) -/
  | athMul (rd rs : Reg) (mode : Dest)
  /-- `ATH rd, rs, DIV, mode` (R75) -/
  | athDiv (rd rs : Reg) (mode : Dest)
  /-- `SFT rs, dir, n` (R77) -/
  | sft (rs : Reg) (dir : Dir) (amount : BitVec 8)
  /-- `PSH rs` (R84) -/
  | psh (rs : Reg)
  /-- `POP rd` (R85) -/
  | pop (rd : Reg)
  /-- `JLT rd, t` (R92) -/
  | jlt (rd : Reg) (target : BitVec 10)
  /-- `OUT rs, f` (R102) -/
  | out (rs : Reg) (fmt : BitVec 8)
  /-- `HLT` (R93) -/
  | hlt
  /-- opcode 13, illegal (R59) -/
  | unknown13
  /-- opcode 14, illegal (R59) -/
  | unknown14
  /-- opcode 15, illegal (R59) -/
  | unknown15
  deriving DecidableEq, Repr

end Sys2Proof
end

