-- ==== Sys2Proof/Decode.lean ====
section
/-! DEFINITION. The field splitter, the opcode resolver and the decoder, and after them the encoder (30_encoding.md).
The decoder is total on every 16-bit word: an unknown opcode is one of its answers (R60). -/

namespace Sys2Proof

/-- The five fields of an instruction word; `high8` and `high10` are the same raw bits read at two widths (R48). -/
structure Fields where
  opcode : BitVec 4
  rd     : BitVec 2
  rs     : BitVec 2
  high8  : BitVec 8
  high10 : BitVec 10
  deriving DecidableEq, Repr

/-- The field splitter, by fixed bit positions (R46, R47). -/
def split (w : Word) : Fields where
  opcode := w.extractLsb' 0 4
  rd     := w.extractLsb' 4 2
  rs     := w.extractLsb' 6 2
  high8  := w.extractLsb' 8 8
  high10 := w.extractLsb' 6 10

/-- The 13 named operations, a closed set (R57, R62). -/
inductive Op where
  | cal | ret | mov | ldv | ldr | ldm | ath | sft | psh | pop | jlt | out | hlt
  deriving DecidableEq, Repr

/-- The opcode resolver: the operation of an opcode, or nothing for an unknown one (R57, R58). -/
def resolve (opcode : BitVec 4) : Option Op :=
  match opcode.toNat with
  | 0  => some .cal
  | 1  => some .ret
  | 2  => some .mov
  | 3  => some .ldv
  | 4  => some .ldr
  | 5  => some .ldm
  | 6  => some .ath
  | 7  => some .sft
  | 8  => some .psh
  | 9  => some .pop
  | 10 => some .jlt
  | 11 => some .out
  | 12 => some .hlt
  | _  => none

/-- The register a 2-bit field selects (R13). -/
def Reg.ofIndex (i : BitVec 2) : Reg :=
  match i.toNat with
  | 0 => .a
  | 1 => .b
  | 2 => .c
  | _ => .d

/-- The index of a register (R13). -/
def Reg.index : Reg → BitVec 2
  | .a => 0
  | .b => 1
  | .c => 2
  | .d => 3

/-- The destination mode of `ATH`, from `mode = high8[2]` (R54). -/
def Dest.ofBit (mode : Bool) : Dest := if mode then .rd else .rs

/-- The direction of `SFT`, from the `rd` field value itself (R55). -/
def Dir.ofField (rd : BitVec 2) : Dir := if rd = 0 then .left else .right

/-- The `ATH` sub-operation, from `aluop = high8[1:0]`, and its destination; `high8[7:3]` is ignored (R54, R50). -/
def decodeAth (f : Fields) : Instr :=
  let rd := Reg.ofIndex f.rd
  let rs := Reg.ofIndex f.rs
  let mode := Dest.ofBit (f.high8.getLsbD 2)
  match (f.high8.extractLsb' 0 2).toNat with
  | 0 => .athAdd rd rs mode
  | 1 => .athSub rd rs mode
  | 2 => .athMul rd rs mode
  | _ => .athDiv rd rs mode

/-- The operands each operation takes from the fields (R52). -/
def decodeOp (op : Op) (f : Fields) : Instr :=
  match op with
  | .cal => .cal f.high10
  | .ret => .ret
  | .mov => .mov (Reg.ofIndex f.rd) (Reg.ofIndex f.rs)
  | .ldv => .ldv (Reg.ofIndex f.rd) f.high10
  | .ldr => .ldr (Reg.ofIndex f.rd) f.high10
  | .ldm => .ldm (Reg.ofIndex f.rd) f.high10
  | .ath => decodeAth f
  | .sft => .sft (Reg.ofIndex f.rs) (Dir.ofField f.rd) f.high8
  | .psh => .psh (Reg.ofIndex f.rs)
  | .pop => .pop (Reg.ofIndex f.rd)
  | .jlt => .jlt (Reg.ofIndex f.rd) f.high10
  | .out => .out (Reg.ofIndex f.rs) f.high8
  | .hlt => .hlt

/-- The illegal instruction of an opcode the resolver does not know: 13, 14 or 15 (R59; DEDUCED, safe: log entry 11). -/
def decodeUnknown (opcode : BitVec 4) : Instr :=
  match opcode.toNat with
  | 13 => .unknown13
  | 14 => .unknown14
  | _  => .unknown15

/-- The decoder (R60): split, resolve, and take the operands. -/
def decode (w : Word) : Instr :=
  match resolve (split w).opcode with
  | some op => decodeOp op (split w)
  | none    => decodeUnknown (split w).opcode

/-- The decoder on a row of spec/opcode_table.json: the word's bits as a number. The bits above `nbits` are 0; a number
that has more bits than it says, or more than the one word of an instruction (R45), is no instruction. -/
def decodeTableWord (nbits w : Nat) : Option Instr :=
  if nbits ≤ 16 ∧ w < 2 ^ nbits then some (decode (BitVec.ofNat 16 w)) else none

/-- Format R of the encoding function (R67). -/
def encR (opc : Nat) (rd rs : BitVec 2) (h8 : BitVec 8) : Word :=
  BitVec.ofNat 16 (h8.toNat * 256 + rs.toNat * 64 + rd.toNat * 16 + opc)

/-- Format I of the encoding function (R67). -/
def encI (opc : Nat) (rd : BitVec 2) (h10 : BitVec 10) : Word :=
  BitVec.ofNat 16 (h10.toNat * 64 + rd.toNat * 16 + opc)

/-- Format N of the encoding function (R67). -/
def encN (opc : Nat) : Word := BitVec.ofNat 16 opc

/-- The mode bit of a destination (R54). -/
def Dest.bit : Dest → Nat
  | .rs => 0
  | .rd => 1

/-- The `rd` field the assembler writes for a direction (R66, R67). -/
def Dir.field : Dir → BitVec 2
  | .left  => 0
  | .right => 1

/-- An `ATH` word: `high8 = mode * 4 + aluop` (R67). -/
def encAth (aluop : Nat) (rd rs : Reg) (mode : Dest) : Word :=
  encR 6 rd.index rs.index (BitVec.ofNat 8 (mode.bit * 4 + aluop))

/-- The word of an instruction, its ignored fields 0 (R66, R67; the illegal opcodes have only their opcode, R59). -/
def encode : Instr → Word
  | .cal t            => encI 0 0 t
  | .ret              => encN 1
  | .mov rd rs        => encR 2 rd.index rs.index 0
  | .ldv rd v         => encI 3 rd.index v
  | .ldr rd a         => encI 4 rd.index a
  | .ldm rd a         => encI 5 rd.index a
  | .athAdd rd rs m   => encAth 0 rd rs m
  | .athSub rd rs m   => encAth 1 rd rs m
  | .athMul rd rs m   => encAth 2 rd rs m
  | .athDiv rd rs m   => encAth 3 rd rs m
  | .sft rs dir n     => encR 7 dir.field rs.index n
  | .psh rs           => encR 8 0 rs.index 0
  | .pop rd           => encR 9 rd.index 0 0
  | .jlt rd t         => encI 10 rd.index t
  | .out rs f         => encR 11 0 rs.index f
  | .hlt              => encN 12
  | .unknown13        => encN 13
  | .unknown14        => encN 14
  | .unknown15        => encN 15

/-- The opcode number of an instruction (R58, R59). -/
def Instr.opcode : Instr → BitVec 4
  | .cal _        => 0
  | .ret          => 1
  | .mov _ _      => 2
  | .ldv _ _      => 3
  | .ldr _ _      => 4
  | .ldm _ _      => 5
  | .athAdd _ _ _ => 6
  | .athSub _ _ _ => 6
  | .athMul _ _ _ => 6
  | .athDiv _ _ _ => 6
  | .sft _ _ _    => 7
  | .psh _        => 8
  | .pop _        => 9
  | .jlt _ _      => 10
  | .out _ _      => 11
  | .hlt          => 12
  | .unknown13    => 13
  | .unknown14    => 14
  | .unknown15    => 15

/-- The bits of a word that decide its instruction, by its opcode; the others are ignored (R52, R53, and the patterns of
spec/opcode_table.json). -/
def usedBits (opcode : BitVec 4) : Word :=
  match opcode.toNat with
  | 0  => 0xFFCF
  | 1  => 0x000F
  | 2  => 0x00FF
  | 3  => 0xFFFF
  | 4  => 0xFFFF
  | 5  => 0xFFFF
  | 6  => 0x07FF
  | 7  => 0xFFFF
  | 8  => 0x00CF
  | 9  => 0x003F
  | 10 => 0xFFFF
  | 11 => 0xFFCF
  | _  => 0x000F

/-- A register as the assembler writes it (R66). -/
def Reg.asm : Reg → String
  | .a => "A"
  | .b => "B"
  | .c => "C"
  | .d => "D"

/-- A destination mode as the assembler writes it (R66). -/
def Dest.asm : Dest → String
  | .rs => "rs"
  | .rd => "rd"

/-- A shift direction as the assembler writes it (R66). -/
def Dir.asm : Dir → String
  | .left  => "L"
  | .right => "R"

/-- An output format as the assembler writes it: a name for 0 to 3, else the number (R66, R56). -/
def fmtAsm (f : BitVec 8) : String :=
  match f.toNat with
  | 0 => "dec"
  | 1 => "bin"
  | 2 => "hex"
  | 3 => "chr"
  | n => toString n

/-- The assembler line of an instruction (R66); an illegal opcode has none. -/
def Instr.asm : Instr → Option String
  | .cal t          => some ("CAL " ++ toString t.toNat)
  | .ret            => some "RET"
  | .mov rd rs      => some ("MOV " ++ rd.asm ++ ", " ++ rs.asm)
  | .ldv rd v       => some ("LDV " ++ rd.asm ++ ", " ++ toString v.toNat)
  | .ldr rd a       => some ("LDR " ++ rd.asm ++ ", " ++ toString a.toNat)
  | .ldm rd a       => some ("LDM " ++ rd.asm ++ ", " ++ toString a.toNat)
  | .athAdd rd rs m => some ("ATH " ++ rd.asm ++ ", " ++ rs.asm ++ ", ADD, " ++ m.asm)
  | .athSub rd rs m => some ("ATH " ++ rd.asm ++ ", " ++ rs.asm ++ ", SUB, " ++ m.asm)
  | .athMul rd rs m => some ("ATH " ++ rd.asm ++ ", " ++ rs.asm ++ ", MUL, " ++ m.asm)
  | .athDiv rd rs m => some ("ATH " ++ rd.asm ++ ", " ++ rs.asm ++ ", DIV, " ++ m.asm)
  | .sft rs dir n   => some ("SFT " ++ rs.asm ++ ", " ++ dir.asm ++ ", " ++ toString n.toNat)
  | .psh rs         => some ("PSH " ++ rs.asm)
  | .pop rd         => some ("POP " ++ rd.asm)
  | .jlt rd t       => some ("JLT " ++ rd.asm ++ ", " ++ toString t.toNat)
  | .out rs f       => some ("OUT " ++ rs.asm ++ ", " ++ fmtAsm f)
  | .hlt            => some "HLT"
  | .unknown13      => none
  | .unknown14      => none
  | .unknown15      => none

end Sys2Proof
end

