-- ==== Sys2Proof/Config.lean ====
section
/-! DEFINITION. What the spec leaves to the implementation or to the host (00_scope.md R7): the three sizes, which are
arguments of the model, and the host's rendering function, which is free but for its one fixed value. -/

namespace Sys2Proof

/-- The open sizes of R7 (D9, D13, D11). They are fixed for a machine; a state carries them so that every statement
is about every size (DESIGN CHOICE, safe: log entry 1). -/
structure Config where
  /-- `MEM_SIZE`, the number of data cells (R24). -/
  memSize : Nat
  /-- `STACK_SIZE`, the number of stack cells; at most `STACK_SIZE - 1` are live (R20, R81, C1). -/
  stackSize : Nat
  /-- `PROG_SIZE`, the number of words of the program store (R25). -/
  progSize : Nat
  deriving DecidableEq, Repr

/-- The sizes 95_test_vectors.md takes where a vector says nothing else: `MEM_SIZE = 1024`, `STACK_SIZE = 4`,
`PROG_SIZE = 1024`. DESIGN CHOICE (log entry 1; unsafe): the spec gives no size to a machine, and `State.reset`
needs one. -/
def Config.vectors : Config := { memSize := 1024, stackSize := 4, progSize := 1024 }

/-- The part of `RENDER` that no source fixes (R103, R104, D20): a free function of the format and the value.
DESIGN CHOICE in its form (log entry 10; safe): nothing can be proved about a value of it. DESIGN CHOICE in its codomain
(log entry 13; unsafe for claims about text): R103 leaves open the character encoding and what a code point in the
surrogate range becomes, and a Lean `String`, a sequence of Unicode scalar values, has no text with an unpaired
surrogate. -/
opaque Config.renderOpen : BitVec 8 → Word → String

/-- `RENDER(fmt, value)`, the text the host makes of an output event (R103). The one value the document fixes is
`RENDER(0, 8) = "8"`. -/
def Config.render (fmt : BitVec 8) (value : Word) : String :=
  if fmt = 0 ∧ value = 8 then "8" else Config.renderOpen fmt value

end Sys2Proof
end

