-- ==== Sys2Proof/Machine/State.lean ====
section
/-! DEFINITION. The machine state as plain data (10_state.md R29), the two reason types, and the state after reset. -/

namespace Sys2Proof.Machine

/-- The contents of one array of 16-bit cells: the data memory, the program store or the stack. It lists
(index, cell) pairs in ONE canonical form, `Memory.wf`; a cell not listed holds `Memory.unlisted`. The unit is the
16-bit cell, the smallest the spec addresses (R32; DEDUCED, safe: log entry 7). -/
abbrev Memory := List (Nat × Word)

/-- What an unlisted cell holds. It is the representation's zero, and so what `State.reset` finds in arrays that
nothing has loaded. DESIGN CHOICE (log entries 2, 3, 4; unsafe). -/
def Memory.unlisted : Word := 0

/-- The canonical form: indices strictly rising, no entry equal to what an unlisted cell holds. -/
abbrev Memory.wf (m : Memory) : Prop :=
  m.Pairwise (fun p q => p.1 < q.1) ∧ ∀ p ∈ m, p.2 ≠ Memory.unlisted

/-- The four general registers (R13), six distinct locations with `IP` and `SP` (R30). -/
structure RegFile where
  a : Word
  b : Word
  c : Word
  d : Word
  deriving DecidableEq, Repr

/-- One event of the output channel, `(fmt, value)` (R26). -/
structure OutEvent where
  fmt   : BitVec 8
  value : Word
  deriving DecidableEq, Repr

/-- The machine state (R29), with the read-only program store and the sizes. -/
structure State where
  /-- `A`, `B`, `C`, `D` (R13). -/
  regs   : RegFile
  /-- `IP`, the instruction pointer: an index into the program store (R16). -/
  ip     : Word
  /-- `SP`, the number of live stack entries (R19). -/
  sp     : Word
  /-- The stack's storage array; live entry `j` stands in cell `j`, the oldest in cell 0 (R20). -/
  stack  : Memory
  /-- The data memory (R24). -/
  mem    : Memory
  /-- `STATUS`, the halt flag and the error flags; bits 15:7 are hardwired 0 (R22, R23). -/
  status : Word
  /-- The output channel, oldest event first (R26, R105). -/
  out    : List OutEvent
  /-- The program store, which no instruction writes (R25, R43). -/
  prog   : Memory
  /-- The sizes, which no step changes (R7, R29). -/
  cfg    : Config
  deriving DecidableEq, Repr

/-- Why a step stops with no next state. The spec's own faults are NOT here: a fault of R109 is a next state whose
`STATUS` holds its cause (DEDUCED, safe: log entry 5). -/
inductive Fault where
  /-- Raised by `push` and `pop` when `SP` names a stack cell at an index `STACK_SIZE` or above, which does not exist
  (R20). Safe: such an `SP` breaks R19's invariant, and no step leads there from a state that keeps it (DESIGN CHOICE: log entry 8). -/
  | stackCellAbsent
  deriving DecidableEq, Repr

/-- Why a step has no meaning. -/
inductive Refusal where
  /-- Raised by `exec`'s refused arms, for an instruction that has no meaning yet; no arm is refused. Safe. -/
  | notModelled (mnemonic : String)
  deriving DecidableEq, Repr

/-- What executing an instruction answers. -/
abbrev Result := Host.Outcome State Fault Refusal

/-- The launch state of R126: registers, `IP`, `SP` and `STATUS` zero, the output channel empty; the sizes, the program,
the initial data and the contents of the stack cells (which no rule reads while `SP = 0`, R28) are inputs. -/
def State.launch (cfg : Config) (prog mem stack : Memory) : State where
  regs   := { a := 0, b := 0, c := 0, d := 0 }
  ip     := 0
  sp     := 0
  stack  := stack
  mem    := mem
  status := 0
  out    := []
  prog   := prog
  cfg    := cfg

/-- The machine right after reset, with nothing loaded (R28, R123). The sizes are those of the spec's test vectors
and no cell of any array is listed (DESIGN CHOICE, unsafe: log entries 1 to 4). -/
def State.reset : State := State.launch Config.vectors [] [] []

end Sys2Proof.Machine
end

