-- ==== Sys2Proof/Machine/Flags.lean ====
section
/-! DEFINITION. The `STATUS` register: its bits, the fault causes, and every reading and setting of it (10_state.md R22, R23;
60_exceptions.md R108). The core has no arithmetic flags (R21). -/

namespace Sys2Proof.Machine

/-- The six fault causes (R107, R108). -/
inductive Cause where
  | stackOverflow
  | stackUnderflow
  | unknownOpcode
  | divisionByZero
  | memoryOutOfRange
  | fetchOutOfRange
  deriving DecidableEq, Repr

/-- The cause code, which is also the position of the cause's `STATUS` bit (R108). -/
def Cause.code : Cause → Nat
  | .stackOverflow    => 1
  | .stackUnderflow   => 2
  | .unknownOpcode    => 3
  | .divisionByZero   => 4
  | .memoryOutOfRange => 5
  | .fetchOutOfRange  => 6

/-- All causes, in the order of their codes. -/
def Cause.all : List Cause :=
  [.stackOverflow, .stackUnderflow, .unknownOpcode, .divisionByZero, .memoryOutOfRange, .fetchOutOfRange]

/-- A cause's bit in `STATUS` (R22, R108). -/
def Cause.bit (c : Cause) : Word := 1#16 <<< c.code

/-- `STATUS.HALTED`, bit 0 (R22). -/
def haltedBit : Word := 0x0001

/-- The fault bits, `STATUS[6:1]` (R22, R65). -/
def faultMask : Word := 0x007E

/-- The bits that exist; 15:7 are reserved and hardwired 0 (R22, R23). -/
def statusMask : Word := 0x007F

/-- `STATUS` as it reads: the reserved bits are 0 (R22; DEDUCED, safe: log entry 9). -/
def State.readStatus (s : State) : Word := s.status &&& statusMask

/-- Setting a bit of `STATUS`. Bits are sticky: what is set stays set (R23); the reserved bits stay 0. -/
def State.setStatusBit (s : State) (bit : Word) : State :=
  { s with status := (s.readStatus ||| bit) &&& statusMask }

/-- The core is running exactly when `STATUS = 0` (R23). -/
def State.running (s : State) : Bool := s.readStatus == 0

/-- `STATUS.HALTED`, the `halt` port (R22, R65). -/
def State.halted (s : State) : Bool := s.readStatus &&& haltedBit != 0

/-- The core is faulted: some bit of `STATUS[6:1]` is 1, the `fault` port (R65, R110). -/
def State.faulted (s : State) : Bool := s.readStatus &&& faultMask != 0

/-- `STATUS` holds this cause (R108). -/
def State.raised (s : State) (c : Cause) : Bool := s.readStatus &&& c.bit != 0

/-- The cause latched in `STATUS`, if any; at most one ever is (R23, R111). -/
def State.cause (s : State) : Option Cause := Cause.all.find? s.raised

end Sys2Proof.Machine
end

