-- ==== Sys2Proof/Machine/Ops.lean ====
section
/-! DEFINITION. The named operations over the state: the primitives of 00_scope.md R10, raising a fault, and what a step does
before it executes a word. -/

namespace Sys2Proof.Machine

/-- A cell of an array. -/
def Memory.read : Memory → Nat → Word
  | [], _ => Memory.unlisted
  | (k, w) :: rest, a => if k = a then w else Memory.read rest a

/-- An entry put before the rest of a list, unless it is what an unlisted cell holds. -/
def Memory.entry (a : Nat) (v : Word) (rest : Memory) : Memory :=
  if v = Memory.unlisted then rest else (a, v) :: rest

/-- A cell of an array set to a value; the canonical form is kept. -/
def Memory.write : Memory → Nat → Word → Memory
  | [], a, v => Memory.entry a v []
  | (k, w) :: rest, a, v =>
    if a < k then Memory.entry a v ((k, w) :: rest)
    else if a = k then Memory.entry a v rest
    else (k, w) :: Memory.write rest a v

/-- A register of the file (R13). -/
def RegFile.get (f : RegFile) : Reg → Word
  | .a => f.a
  | .b => f.b
  | .c => f.c
  | .d => f.d

/-- The file with one register set (R30: a write to one changes no other). -/
def RegFile.set (f : RegFile) (r : Reg) (v : Word) : RegFile :=
  match r with
  | .a => { f with a := v }
  | .b => { f with b := v }
  | .c => { f with c := v }
  | .d => { f with d := v }

/-- `x[i]` (R10, R14). -/
def State.readReg (s : State) (r : Reg) : Word := s.regs.get r

/-- `x[i] <- v`: every write passes through `wrap` (R10, R14). -/
def State.writeReg (s : State) (r : Reg) (v : Int) : State := { s with regs := s.regs.set r (wrap v) }

/-- `IP <- v` (R10, R16). -/
def State.writeIp (s : State) (v : Int) : State := { s with ip := wrap v }

/-- `SP <- v` (R10, R19). -/
def State.writeSp (s : State) (v : Int) : State := { s with sp := wrap v }

/-- `MemRead(a, 1)` (R35); the address unit has checked `a` (R36). -/
def State.readMem (s : State) (a : Nat) : Word := s.mem.read a

/-- `MemWrite(a, 1, v)` (R35); the address unit has checked `a` (R36). -/
def State.writeMem (s : State) (a : Nat) (v : Int) : State := { s with mem := s.mem.write a (wrap v) }

/-- `stack[j]` (R20). -/
def State.readStack (s : State) (j : Nat) : Word := s.stack.read j

/-- `stack[j] <- wrap(v)` (R20, R81). -/
def State.writeStack (s : State) (j : Nat) (v : Int) : State := { s with stack := s.stack.write j (wrap v) }

/-- `Emit(fmt, v)`: the event is appended to the output channel (R10, R102, R105). -/
def State.emit (s : State) (fmt : BitVec 8) (v : Word) : State :=
  { s with out := s.out ++ [{ fmt := fmt, value := v }] }

/-- `halt`: `STATUS.HALTED <- 1` (R10, R93). -/
def State.halt (s : State) : State := s.setStatusBit haltedBit

/-- `STATUS[cause] <- 1` and nothing else (R109). -/
def State.latch (s : State) (c : Cause) : State := s.setStatusBit c.bit

/-- `raise Fault(cause)`, the one way a fault is taken (R109): nothing of the instruction is written, its cause is
latched in `STATUS`, and the core is stopped by that (R110). It saves no state, changes no mode and transfers control
nowhere (R114), and there is no return from it (R115). The answer is a next state (DEDUCED, safe: log entry 5). -/
def raiseFault (c : Cause) (s : State) : Result := .next (s.latch c)

/-- `Push(v)`, then the rest of the rule (R81). The check stands before the first write; the last slot is never
written (R87, C1). -/
def push (v : Int) (s : State) (rest : State → Result) : Result :=
  if s.sp.toNat = s.cfg.stackSize - 1 then raiseFault .stackOverflow s
  else if s.sp.toNat < s.cfg.stackSize then
    rest ((s.writeStack s.sp.toNat v).writeSp (s.sp.toNat + 1))
  else .fault .stackCellAbsent

/-- `Pop()`, then the rest of the rule with the value popped (R82). The cell keeps its content (R20). -/
def pop (s : State) (rest : Word → State → Result) : Result :=
  if s.sp.toNat = 0 then raiseFault .stackUnderflow s
  else if s.sp.toNat - 1 < s.cfg.stackSize then
    rest (s.readStack (s.sp.toNat - 1)) (s.writeSp (s.sp.toNat - 1))
  else .fault .stackCellAbsent

/-- The word at `IP`, or nothing where `IP >= PROG_SIZE` (R63). -/
def State.fetch (s : State) : Option Word :=
  if s.ip.toNat < s.cfg.progSize then some (s.prog.read s.ip.toNat) else none

/-- `IP <- wrap(IP + 1)`, the run loop's advance (R17, R63). -/
def State.advance (s : State) : State := s.writeIp (s.ip.toNat + 1)

/-- What a step does before it executes a word: it ends without one, or it has a word to execute in a state. -/
inductive Issue where
  /-- no word is executed; the step ends in this state -/
  | ends (s : State)
  /-- this word is executed in this state -/
  | runs (w : Word) (s : State)
  deriving DecidableEq, Repr

/-- The phases 1 to 4 of a step (R131, R63): while `STATUS` is not 0 nothing happens (R110, R65; DEDUCED, safe: log entry 6); a fetch
outside the program raises FetchOutOfRange and leaves `IP`; else the word is fetched and `IP` advanced, before the
word is executed. -/
def issue (s : State) : Issue :=
  if s.running then
    match s.fetch with
    | some w => .runs w s.advance
    | none   => .ends (s.latch .fetchOutOfRange)
  else .ends s

/-- The instruction with this word placed where the next fetch reads: in the program store at `IP`, inside a program
long enough to hold it (DESIGN CHOICE: log entry 3). -/
def State.place (s : State) (w : Word) : State :=
  { s with
    prog := s.prog.write s.ip.toNat w
    cfg  := { s.cfg with progSize := max s.cfg.progSize (s.ip.toNat + 1) } }

end Sys2Proof.Machine
end

