-- ==== Sys2Proof/Machine/Operands.lean ====
section
/-! DEFINITION. The operand forms: `high10` as a value, the memory address unit, and the destination of `ATH`
(30_encoding.md R49, 20_memory.md R36, 40_arithmetic.md R70). -/

namespace Sys2Proof.Machine

/-- `zext_W(high10)`: zero-extended, never sign-extended, scaled or shifted (R49, R8). -/
def zextW (high10 : BitVec 10) : Word := high10.setWidth 16

/-- The memory address unit (R36): the absolute effective address, checked against `MEM_SIZE`, then the rest of the
rule. -/
def withAddress (high10 : BitVec 10) (s : State) (rest : Nat → Result) : Result :=
  let ea := (zextW high10).toNat
  if s.cfg.memSize ≤ ea then raiseFault .memoryOutOfRange s else rest ea

/-- The register that receives an `ATH` result: `rd` in mode 1, `rs` in mode 0 (R70). -/
def athDest (mode : Dest) (rd rs : Reg) : Reg :=
  match mode with
  | .rd => rd
  | .rs => rs

end Sys2Proof.Machine
end

