-- ==== Sys2Proof/Machine/Arithmetic.lean ====
section
/-! DEFINITION. `ATH` and `SFT` (40_arithmetic.md). Results are exact integers, wrapped by the register write (R69). -/

namespace Sys2Proof.Machine

/-- The result of an `ATH` operation written to the register its mode selects (R70, R71). -/
def athWrite (rd rs : Reg) (mode : Dest) (r : Int) (s : State) : Result :=
  .next (s.writeReg (athDest mode rd rs) r)

/-- `ATH rd, rs, ADD, mode`: `x[rd] + x[rs]` (R72). -/
def execAthAdd (rd rs : Reg) (mode : Dest) (s : State) : Result :=
  athWrite rd rs mode ((s.readReg rd).toNat + (s.readReg rs).toNat) s

/-- `ATH rd, rs, SUB, mode`: `x[rs] - x[rd]`, the operands reversed relative to ADD (R73). -/
def execAthSub (rd rs : Reg) (mode : Dest) (s : State) : Result :=
  athWrite rd rs mode ((s.readReg rs).toNat - (s.readReg rd).toNat) s

/-- `ATH rd, rs, MUL, mode`: `x[rs] * x[rd]`, the high half lost (R74). -/
def execAthMul (rd rs : Reg) (mode : Dest) (s : State) : Result :=
  athWrite rd rs mode ((s.readReg rs).toNat * (s.readReg rd).toNat) s

/-- `ATH rd, rs, DIV, mode`: the floor of `x[rs] / x[rd]`; DivisionByZero when `x[rd] = 0` (R75). -/
def execAthDiv (rd rs : Reg) (mode : Dest) (s : State) : Result :=
  if (s.readReg rd).toNat = 0 then raiseFault .divisionByZero s
  else athWrite rd rs mode (((s.readReg rs).toNat / (s.readReg rd).toNat : Nat) : Int) s

/-- The exact result of a shift, left or logical right (R77); an amount of `W` or more so gives 0 once wrapped (R78). -/
def shifted (dir : Dir) (v n : Nat) : Nat :=
  match dir with
  | .left  => v * 2 ^ n
  | .right => v / 2 ^ n

/-- `SFT rs, dir, n`: `x[rs]` is shifted in place (R77). -/
def execSft (rs : Reg) (dir : Dir) (amount : BitVec 8) (s : State) : Result :=
  .next (s.writeReg rs (shifted dir (s.readReg rs).toNat amount.toNat))

end Sys2Proof.Machine
end

