-- ==== Sys2Proof/Machine/Control.lean ====
section
/-! DEFINITION. The control-flow mux: `CAL`, `RET`, `JLT`, `HLT`, and the illegal opcodes (42_control_flow.md;
30_encoding.md R59). While an instruction executes, `IP` already holds the address after it (R17). -/

namespace Sys2Proof.Machine

/-- `CAL t`: the `IP` it sees is pushed, then `IP <- high10` (R90, R130). -/
def execCal (target : BitVec 10) (s : State) : Result :=
  push s.ip.toNat s fun s' => .next (s'.writeIp (zextW target).toNat)

/-- `RET`: `IP <- Pop()` (R91). -/
def execRet (s : State) : Result :=
  pop s fun v s' => .next (s'.writeIp v.toNat)

/-- `JLT rd, t`: `IP <- high10` when `A < x[rd]`, unsigned; else `IP` stays as advanced (R92). -/
def execJlt (rd : Reg) (target : BitVec 10) (s : State) : Result :=
  if (s.readReg .a).toNat < (s.readReg rd).toNat then .next (s.writeIp (zextW target).toNat) else .next s

/-- `HLT` (R93). -/
def execHlt (s : State) : Result := .next s.halt

/-- Opcode 13: UnknownOpcode (R59). -/
def execUnknown13 (s : State) : Result := raiseFault .unknownOpcode s

/-- Opcode 14: UnknownOpcode (R59). -/
def execUnknown14 (s : State) : Result := raiseFault .unknownOpcode s

/-- Opcode 15: UnknownOpcode (R59). -/
def execUnknown15 (s : State) : Result := raiseFault .unknownOpcode s

end Sys2Proof.Machine
end

