-- ==== Sys2Proof/Machine/DataMove.lean ====
section
/-! DEFINITION. `MOV`, `LDV`, `LDR`, `LDM` (43_data_movement.md). -/

namespace Sys2Proof.Machine

/-- `MOV rd, rs` (R96). -/
def execMov (rd rs : Reg) (s : State) : Result :=
  .next (s.writeReg rd (s.readReg rs).toNat)

/-- `LDV rd, v` (R97). -/
def execLdv (rd : Reg) (literal : BitVec 10) (s : State) : Result :=
  .next (s.writeReg rd (zextW literal).toNat)

/-- `LDR rd, a`: a load (R98). -/
def execLdr (rd : Reg) (address : BitVec 10) (s : State) : Result :=
  withAddress address s fun ea => .next (s.writeReg rd (s.readMem ea).toNat)

/-- `LDM rd, a`: a store, despite its mnemonic (R99, C7). -/
def execLdm (rd : Reg) (address : BitVec 10) (s : State) : Result :=
  withAddress address s fun ea => .next (s.writeMem ea (s.readReg rd).toNat)

end Sys2Proof.Machine
end

