-- ==== Sys2Proof/Machine/Output.lean ====
section
/-! DEFINITION. The output port: `OUT` (44_output.md). -/

namespace Sys2Proof.Machine

/-- `OUT rs, f`: the event `(high8, x[rs])` is emitted as it is, for every format (R102, R104). -/
def execOut (rs : Reg) (fmt : BitVec 8) (s : State) : Result :=
  .next (s.emit fmt (s.readReg rs))

end Sys2Proof.Machine
end

