-- ==== Sys2Proof/Machine/Stack.lean ====
section
/-! DEFINITION. `PSH` and `POP` (41_stack.md). -/

namespace Sys2Proof.Machine

/-- `PSH rs`: `Push(x[rs])` (R84). -/
def execPsh (rs : Reg) (s : State) : Result :=
  push (s.readReg rs).toNat s fun s' => .next s'

/-- `POP rd`: `x[rd] <- Pop()` (R85). -/
def execPop (rd : Reg) (s : State) : Result :=
  pop s fun v s' => .next (s'.writeReg rd v.toNat)

end Sys2Proof.Machine
end

