-- ==== Sys2Proof/Machine/Dispatch.lean ====
section
/-! DEFINITION. Dispatch: one arm per instruction, each one call of its meaning (30_encoding.md R61). -/

namespace Sys2Proof.Machine

def exec (i : Instr) (s : State) : Host.Outcome State Fault Refusal :=
  match i with
  | .cal target => Sys2Proof.Machine.execCal target s
  | .ret => Sys2Proof.Machine.execRet s
  | .mov rd rs => Sys2Proof.Machine.execMov rd rs s
  | .ldv rd literal => Sys2Proof.Machine.execLdv rd literal s
  | .ldr rd address => Sys2Proof.Machine.execLdr rd address s
  | .ldm rd address => Sys2Proof.Machine.execLdm rd address s
  | .athAdd rd rs mode => Sys2Proof.Machine.execAthAdd rd rs mode s
  | .athSub rd rs mode => Sys2Proof.Machine.execAthSub rd rs mode s
  | .athMul rd rs mode => Sys2Proof.Machine.execAthMul rd rs mode s
  | .athDiv rd rs mode => Sys2Proof.Machine.execAthDiv rd rs mode s
  | .sft rs dir amount => Sys2Proof.Machine.execSft rs dir amount s
  | .psh rs => Sys2Proof.Machine.execPsh rs s
  | .pop rd => Sys2Proof.Machine.execPop rd s
  | .jlt rd target => Sys2Proof.Machine.execJlt rd target s
  | .out rs fmt => Sys2Proof.Machine.execOut rs fmt s
  | .hlt => Sys2Proof.Machine.execHlt s
  | .unknown13 => Sys2Proof.Machine.execUnknown13 s
  | .unknown14 => Sys2Proof.Machine.execUnknown14 s
  | .unknown15 => Sys2Proof.Machine.execUnknown15 s

end Sys2Proof.Machine
end

