-- ==== Sys2Proof/Machine/Step.lean ====
section
/-! DEFINITION. One `step` transaction of the whole machine (30_encoding.md R63, R65). -/

namespace Sys2Proof.Machine

/-- One step: what comes before the execute (`issue`), then the word's instruction in the state with `IP` advanced. -/
def step (s : State) : Host.Outcome State Fault Refusal :=
  match issue s with
  | .ends s'   => .next s'
  | .runs w s' => exec (decode w) s'

/-- The state with a word of the opcode table placed at `IP` in the program store (log entry 3). An instruction is one
word of 16 bits, so bits above it are not stored, and the bits above `nbits` are 0. -/
def State.withFetchWord (s : State) (nbits w : Nat) : State :=
  s.place (BitVec.ofNat 16 (w % 2 ^ nbits))

end Sys2Proof.Machine
end

