-- ==== Sys2Proof/Machine/Platform.lean ====
section
/-! DEFINITION. What stands around the step: the host's reset and load, the outcome of an execute, the ports of the block and
the text of the output (30_encoding.md R65, 60_exceptions.md R122, 70_reset_and_hazards.md, 44_output.md R103). -/

namespace Sys2Proof.Machine

/-- The reset transaction (`rst`, R123), in any state: registers, `IP`, `SP` and `STATUS` zero, the output channel
empty, the data memory and the program store kept. The stack cells are left unspecified: they are the argument `cells`,
whatever it is (safe: log entry 4). -/
def State.applyReset (s : State) (cells : Memory) : State := State.launch s.cfg s.prog s.mem cells

/-- The host's load before the first step (R122, R125): the program and the initial data are put in place. -/
def State.load (s : State) (prog mem : Memory) : State := { s with prog := prog, mem := mem }

/-- The transactions of the block (R65). -/
inductive Transaction where
  /-- reset, leaving the stack cells at these contents -/
  | rst (cells : Memory)
  /-- one step -/
  | step
  deriving DecidableEq, Repr

/-- What a transaction does (R65, R123, R63). -/
def transact (t : Transaction) (s : State) : Result :=
  match t with
  | .rst cells => .next (s.applyReset cells)
  | .step      => Machine.step s

/-- The outcome of one execute (R11). -/
inductive ExecOutcome where
  /-- `Continue` -/
  | continues
  /-- `Halt` -/
  | halts
  /-- `Fault(cause)` -/
  | faults (c : Cause)
  deriving DecidableEq, Repr

/-- The outcome as the host reads it off the state after the execute: the cause latched in `STATUS`, else the halt flag
(R11, R64, R108). -/
def State.outcome (s : State) : ExecOutcome :=
  match s.cause with
  | some c => .faults c
  | none   => if s.halted then .halts else .continues

/-- A run has ended normally: `STATUS = 0x0001` (R127, R110). -/
def State.finished (s : State) : Bool := s.readStatus == haltedBit

/-- The address of the instruction that faulted, read after the fault: `IP` for a fetch fault, else `wrap(IP - 1)`
(R112). -/
def State.faultAddress (s : State) : Word :=
  if s.raised .fetchOutOfRange then s.ip else wrap (s.ip.toNat - 1)

/-- The text the host prints: each event rendered, in order, with nothing between them (R103, R105). Text is a Lean
`String` by the model's choice (log entry 13). -/
def State.outText (s : State) : String :=
  String.join (s.out.map fun e => Config.render e.fmt e.value)

/-- The ports of the block in one step (R65). A port to which the step's instruction gives nothing has no value here
(DESIGN CHOICE: log entry 12). -/
structure Ports where
  /-- `prog_addr`: `IP` at the fetch -/
  progAddr : Word
  /-- `prog_data`: the word there, if it is fetched -/
  progData : Option Word
  /-- `mem_addr`: `high10`, for `LDR` and `LDM` -/
  memAddr  : Option (BitVec 10)
  /-- `mem_we`: 1 for `LDM` -/
  memWe    : Bool
  /-- `mem_wdata`: `x[rd]`, for `LDM` -/
  memWdata : Option Word
  /-- `mem_rdata`: the cell at `mem_addr`, for `LDR` inside the memory -/
  memRdata : Option Word
  /-- `out_valid`: 1 in a step that executes `OUT` -/
  outValid : Bool
  /-- `out_fmt`: `high8` of the `OUT` -/
  outFmt   : Option (BitVec 8)
  /-- `out_data`: `x[rs]` of the `OUT` -/
  outData  : Option Word
  deriving DecidableEq, Repr

/-- The ports of a step that executes no word. -/
def State.idlePorts (s : State) : Ports where
  progAddr := s.ip
  progData := none
  memAddr  := none
  memWe    := false
  memWdata := none
  memRdata := none
  outValid := false
  outFmt   := none
  outData  := none

/-- What flows on the ports in the step from `s` (R65); `halt`, `fault` and `status` are `State.halted`,
`State.faulted` and `State.readStatus` of a state. -/
def State.ports (s : State) : Ports :=
  match issue s with
  | .ends _   => s.idlePorts
  | .runs w _ =>
    let base := { s.idlePorts with progData := some w }
    match decode w with
    | .ldr _ a  =>
      { base with
        memAddr  := some a
        memRdata := if a.toNat < s.cfg.memSize then some (s.readMem a.toNat) else none }
    | .ldm rd a => { base with memAddr := some a, memWe := true, memWdata := some (s.readReg rd) }
    | .out rs f => { base with outValid := true, outFmt := some f, outData := some (s.readReg rs) }
    | .cal _ | .ret | .mov _ _ | .ldv _ _ | .athAdd _ _ _ | .athSub _ _ _ | .athMul _ _ _ | .athDiv _ _ _
    | .sft _ _ _ | .psh _ | .pop _ | .jlt _ _ | .hlt | .unknown13 | .unknown14 | .unknown15 => base

end Sys2Proof.Machine
end

