-- ==== Sys2Proof/WellFormed.lean ====
section
/-! DEFINITION. The checks on plain data that the types do not make. An instruction needs none: every register index
names a register (R13), every field value is valid (R46), and each operand of `Instr` has its field's own width. The
open sizes have the ranges of 00_scope.md R7. -/

namespace Sys2Proof

/-- The sizes R7 allows: `1 <= MEM_SIZE`, `1 <= STACK_SIZE <= 2^W`, `1 <= PROG_SIZE <= 2^W`. -/
abbrev Config.wf (c : Config) : Prop :=
  1 ≤ c.memSize ∧
  (1 ≤ c.stackSize ∧ c.stackSize ≤ 2 ^ 16) ∧
  (1 ≤ c.progSize ∧ c.progSize ≤ 2 ^ 16)

end Sys2Proof
end

