-- ==== Sys2Proof/Safety.lean ====
section
/-! DEFINITION. The terms claims are stated in: the invariant of the machine, the tables of the spec that say which
instruction writes what and raises what, and two states a program cannot tell apart. -/

namespace Sys2Proof.Machine

/-- An array in canonical form that lists only cells below `n`. -/
abbrev Memory.within (m : Memory) (n : Nat) : Prop := m.wf ∧ ∀ p ∈ m, p.1 < n

/-- The values `STATUS` can have: at most one bit is ever set, and the reserved bits are 0 (R22, R23). -/
def legalStatus : List Word := 0 :: haltedBit :: Cause.all.map Cause.bit

/-- The invariant of the machine: sizes in the ranges of R7, `SP` at most `STACK_SIZE - 1` (R19), `STATUS` legal (R23),
and each array in canonical form within its size (R20, R24, R25). -/
abbrev State.Inv (s : State) : Prop :=
  s.cfg.wf ∧
  s.sp.toNat ≤ s.cfg.stackSize - 1 ∧
  s.status ∈ legalStatus ∧
  s.mem.within s.cfg.memSize ∧
  s.stack.within s.cfg.stackSize ∧
  s.prog.within s.cfg.progSize

/-- The general register an instruction may write (R15, with R70 for `ATH`). -/
def destReg : Instr → Option Reg
  | .mov rd _      => some rd
  | .ldv rd _      => some rd
  | .ldr rd _      => some rd
  | .athAdd rd rs m => some (athDest m rd rs)
  | .athSub rd rs m => some (athDest m rd rs)
  | .athMul rd rs m => some (athDest m rd rs)
  | .athDiv rd rs m => some (athDest m rd rs)
  | .sft rs _ _    => some rs
  | .pop rd        => some rd
  | .cal _ | .ret | .ldm _ _ | .psh _ | .jlt _ _ | .out _ _ | .hlt
  | .unknown13 | .unknown14 | .unknown15 => none

/-- The one cause an instruction can raise (R108, R111). -/
def faultOf : Instr → Option Cause
  | .psh _ | .cal _ => some .stackOverflow
  | .pop _ | .ret => some .stackUnderflow
  | .athDiv _ _ _ => some .divisionByZero
  | .ldr _ _ | .ldm _ _ => some .memoryOutOfRange
  | .unknown13 | .unknown14 | .unknown15 => some .unknownOpcode
  | .mov _ _ | .ldv _ _ | .athAdd _ _ _ | .athSub _ _ _ | .athMul _ _ _ | .sft _ _ _ | .jlt _ _ | .out _ _ | .hlt => none

/-- The data address an instruction stores to (R99; R43: no other instruction stores). -/
def storeAddress : Instr → Option Nat
  | .ldm _ a => some (zextW a).toNat
  | .cal _ | .ret | .mov _ _ | .ldv _ _ | .ldr _ _ | .athAdd _ _ _ | .athSub _ _ _ | .athMul _ _ _ | .athDiv _ _ _
  | .sft _ _ _ | .psh _ | .pop _ | .jlt _ _ | .out _ _ | .hlt | .unknown13 | .unknown14 | .unknown15 => none

/-- The instructions that use the stack controller (R86). -/
def usesStack : Instr → Bool
  | .psh _ | .pop _ | .cal _ | .ret => true
  | .mov _ _ | .ldv _ _ | .ldr _ _ | .ldm _ _ | .athAdd _ _ _ | .athSub _ _ _ | .athMul _ _ _ | .athDiv _ _ _
  | .sft _ _ _ | .jlt _ _ | .out _ _ | .hlt | .unknown13 | .unknown14 | .unknown15 => false

/-- The events an instruction appends to the output channel (R102; R105: one per executed `OUT`). -/
def emits (i : Instr) (s : State) : List OutEvent :=
  match i with
  | .out rs f => [{ fmt := f, value := s.readReg rs }]
  | .cal _ | .ret | .mov _ _ | .ldv _ _ | .ldr _ _ | .ldm _ _ | .athAdd _ _ _ | .athSub _ _ _ | .athMul _ _ _
  | .athDiv _ _ _ | .sft _ _ _ | .psh _ | .pop _ | .jlt _ _ | .hlt | .unknown13 | .unknown14 | .unknown15 => []

/-- The answer is a fault of this cause, taken as R109 says: a next state that has the cause latched in `STATUS` and is
otherwise the state itself. -/
def FaultsWith (answer : Result) (s : State) (c : Cause) : Prop :=
  ∃ t, answer = .next t ∧ t = { s with status := t.status } ∧ t.raised c = true

/-- The instruction completes with `STATUS` 0 and `IP` at `target`, and the next step raises FetchOutOfRange and leaves
`IP` there (R89, R63). -/
def TransfersOutOfProgram (i : Instr) (s : State) (target : Nat) : Prop :=
  ∃ t u, exec i s = .next t ∧ t.status = 0 ∧ t.ip.toNat = target ∧
    step t = .next u ∧ u.raised .fetchOutOfRange = true ∧ u.ip.toNat = target

/-- Two states that differ at most in stack cells at indices `SP` and above, which no rule reads (R20); both stacks are
in canonical form. -/
def SameButDeadCells (s s' : State) : Prop :=
  s' = { s with stack := s'.stack } ∧ s.stack.wf ∧ s'.stack.wf ∧
  ∀ j, j < s.sp.toNat → s'.readStack j = s.readStack j

/-- `PSH r` executed `n` times in a row (R83). -/
def pushTimes (r : Reg) : Nat → State → Result
  | 0, s => .next s
  | n + 1, s =>
    match exec (.psh r) s with
    | .next t    => pushTimes r n t
    | .fault f   => .fault f
    | .refused f => .refused f

end Sys2Proof.Machine
end

