-- ==== Sys2Proof/Certificates/Slice0/Obligations.lean ====
section
/-! DEFINITION. The statements for the provers. A statement of an instruction says that it answers a next state, what that state
holds, and, by `t = { s with … }`, that everything else is unchanged. -/

open Sys2Proof Sys2Proof.Machine

/-- R96. `MOV rd, rs` completes in every state and copies `x[rs]` to `x[rd]`; nothing but `x[rd]` changes, `IP` staying as
the run loop advanced it. `rd = rs` changes nothing. -/
def Obligations.MovCopiesSourceRegister : Prop :=
  ∀ (rd rs : Reg) (s : State), ∃ t, exec (.mov rd rs) s = .next t ∧
    t = { s with regs := t.regs } ∧
    t.readReg rd = s.readReg rs ∧ ∀ r, r ≠ rd → t.readReg r = s.readReg r

/-- R97. `LDV rd, v` completes in every state and puts the zero-extended literal into `x[rd]`; nothing else changes. -/
def Obligations.LdvLoadsLiteral : Prop :=
  ∀ (rd : Reg) (v : BitVec 10) (s : State), ∃ t, exec (.ldv rd v) s = .next t ∧
    t = { s with regs := t.regs } ∧
    (t.readReg rd).toNat = v.toNat ∧ ∀ r, r ≠ rd → t.readReg r = s.readReg r

/-- R98 and R36. `LDR rd, a` inside the memory completes, loads the cell and changes nothing but `x[rd]`; outside it
raises MemoryOutOfRange (the spec's own decision D9; a fault is a next state with its bit latched in `STATUS`: log entry
5, D15, D16) and changes nothing else. -/
def Obligations.LdrLoadsCellOrFaults : Prop :=
  ∀ (rd : Reg) (a : BitVec 10) (s : State),
    (a.toNat < s.cfg.memSize → ∃ t, exec (.ldr rd a) s = .next t ∧
      t = { s with regs := t.regs } ∧
      t.readReg rd = s.readMem a.toNat ∧ ∀ r, r ≠ rd → t.readReg r = s.readReg r) ∧
    (s.cfg.memSize ≤ a.toNat → FaultsWith (exec (.ldr rd a) s) s .memoryOutOfRange)

/-- R99 and R36. `LDM rd, a` inside the memory completes and stores `x[rd]` into the cell at its effective address
`zext_W(high10)` (it reads back as stored where memory keeps its canonical form, an invariant stated as
`StepKeepsInvariant`); every other cell and everything else is unchanged. Outside the memory it raises MemoryOutOfRange
(the spec's own decision D9; a fault is a next state with its bit latched in `STATUS`: log entry 5, D15, D16) and memory
is unchanged. -/
def Obligations.LdmStoresRegisterOrFaults : Prop :=
  ∀ (rd : Reg) (a : BitVec 10) (s : State),
    (a.toNat < s.cfg.memSize → ∃ t, exec (.ldm rd a) s = .next t ∧
      t = { s with mem := t.mem } ∧
      (s.mem.wf → t.readMem (zextW a).toNat = s.readReg rd) ∧
      ∀ b, b ≠ (zextW a).toNat → t.readMem b = s.readMem b) ∧
    (s.cfg.memSize ≤ a.toNat → FaultsWith (exec (.ldm rd a) s) s .memoryOutOfRange)

/-- R72 with R70. `ATH rd, rs, ADD, mode` completes in every state: `(x[rd] + x[rs]) mod 2^16` goes to `x[rd]` in mode 1
and to `x[rs]` in mode 0; nothing else changes. -/
def Obligations.AthAddWritesSum : Prop :=
  ∀ (rd rs : Reg) (m : Dest) (s : State), ∃ t, exec (.athAdd rd rs m) s = .next t ∧
    t = { s with regs := t.regs } ∧
    (t.readReg (if m = .rd then rd else rs)).toNat = ((s.readReg rd).toNat + (s.readReg rs).toNat) % 2 ^ 16 ∧
    ∀ r, r ≠ (if m = .rd then rd else rs) → t.readReg r = s.readReg r

/-- R73 with R70. `ATH rd, rs, SUB, mode` completes in every state: `x[rs] - x[rd]`, taken in the integers and reduced
modulo 2^16, goes to the register the mode selects; nothing else changes. -/
def Obligations.AthSubWritesReversedDifference : Prop :=
  ∀ (rd rs : Reg) (m : Dest) (s : State), ∃ t, exec (.athSub rd rs m) s = .next t ∧
    t = { s with regs := t.regs } ∧
    ((t.readReg (if m = .rd then rd else rs)).toNat : Int) =
      ((s.readReg rs).toNat - (s.readReg rd).toNat : Int) % 2 ^ 16 ∧
    ∀ r, r ≠ (if m = .rd then rd else rs) → t.readReg r = s.readReg r

/-- R74 with R70. `ATH rd, rs, MUL, mode` completes in every state: the low 16 bits of `x[rs] * x[rd]` go to the register
the mode selects; nothing else changes. -/
def Obligations.AthMulWritesLowProduct : Prop :=
  ∀ (rd rs : Reg) (m : Dest) (s : State), ∃ t, exec (.athMul rd rs m) s = .next t ∧
    t = { s with regs := t.regs } ∧
    (t.readReg (if m = .rd then rd else rs)).toNat = ((s.readReg rs).toNat * (s.readReg rd).toNat) % 2 ^ 16 ∧
    ∀ r, r ≠ (if m = .rd then rd else rs) → t.readReg r = s.readReg r

/-- R75 with R70. `ATH rd, rs, DIV, mode` with `x[rd]` not 0 completes: the floor of `x[rs] / x[rd]` goes to the register
the mode selects and nothing else changes. With `x[rd] = 0` it raises DivisionByZero (the spec's own decision D8; a fault
is a next state with its bit latched in `STATUS`: log entry 5, D15, D16) and writes no register. -/
def Obligations.AthDivWritesQuotientOrFaults : Prop :=
  ∀ (rd rs : Reg) (m : Dest) (s : State),
    ((s.readReg rd).toNat ≠ 0 → ∃ t, exec (.athDiv rd rs m) s = .next t ∧
      t = { s with regs := t.regs } ∧
      (t.readReg (if m = .rd then rd else rs)).toNat = (s.readReg rs).toNat / (s.readReg rd).toNat ∧
      ∀ r, r ≠ (if m = .rd then rd else rs) → t.readReg r = s.readReg r) ∧
    ((s.readReg rd).toNat = 0 → FaultsWith (exec (.athDiv rd rs m) s) s .divisionByZero)

/-- R76. With `rd = rs` the mode makes no difference, and the one register gets twice its value, 0, its square, or 1;
where it is 0, DIV raises DivisionByZero (the spec's own decision D8; a fault is a next state with its bit latched in
`STATUS`: log entry 5, D15, D16) and changes nothing else. -/
def Obligations.AthOnOneRegister : Prop :=
  ∀ (r : Reg) (m : Dest) (s : State),
    (∃ t, exec (.athAdd r r m) s = .next t ∧ (t.readReg r).toNat = (2 * (s.readReg r).toNat) % 2 ^ 16) ∧
    (∃ t, exec (.athSub r r m) s = .next t ∧ (t.readReg r).toNat = 0) ∧
    (∃ t, exec (.athMul r r m) s = .next t ∧ (t.readReg r).toNat = (s.readReg r).toNat ^ 2 % 2 ^ 16) ∧
    ((s.readReg r).toNat ≠ 0 → ∃ t, exec (.athDiv r r m) s = .next t ∧ (t.readReg r).toNat = 1) ∧
    ((s.readReg r).toNat = 0 → FaultsWith (exec (.athDiv r r m) s) s .divisionByZero)

/-- R77. `SFT rs, dir, n` completes in every state and overwrites `x[rs]` in place: left with `x[rs] * 2^n mod 2^16`,
right with the floor of `x[rs] / 2^n`; nothing else changes. That `n` is used in full, so that `n >= 16` gives 0, is the
spec's own decision D7 (R78). -/
def Obligations.SftShiftsInPlace : Prop :=
  ∀ (rs : Reg) (n : BitVec 8) (s : State),
    (∃ t, exec (.sft rs .left n) s = .next t ∧
      t = { s with regs := t.regs } ∧
      (t.readReg rs).toNat = (s.readReg rs).toNat * 2 ^ n.toNat % 2 ^ 16 ∧
      ∀ r, r ≠ rs → t.readReg r = s.readReg r) ∧
    (∃ t, exec (.sft rs .right n) s = .next t ∧
      t = { s with regs := t.regs } ∧
      (t.readReg rs).toNat = (s.readReg rs).toNat / 2 ^ n.toNat ∧
      ∀ r, r ≠ rs → t.readReg r = s.readReg r)

/-- R78, the spec's own decision D7. A shift by 16 or more, left or right, gives 0. -/
def Obligations.SftByWidthOrMoreGivesZero : Prop :=
  ∀ (rs : Reg) (d : Dir) (n : BitVec 8) (s : State), 16 ≤ n.toNat →
    ∃ t, exec (.sft rs d n) s = .next t ∧ t.readReg rs = 0

/-- R79, every amount used in full by the spec's own decision D7. A left shift by `a` and then by `b` leaves what one left
shift by `a + b` would, also where `a + b` is 16 or more. -/
def Obligations.SftLeftShiftsAdd : Prop :=
  ∀ (rs : Reg) (a b : BitVec 8) (s : State), ∃ t u,
    exec (.sft rs .left a) s = .next t ∧ exec (.sft rs .left b) t = .next u ∧
    (u.readReg rs).toNat = (s.readReg rs).toNat * 2 ^ (a.toNat + b.toNat) % 2 ^ 16 ∧
    (16 ≤ a.toNat + b.toNat → u.readReg rs = 0)

/-- R81, in `PSH rs` (R84). With room the push completes: the cell at `SP` holds `x[rs]` (where the stack keeps its
canonical form), every other cell is unchanged, `SP` is one more, and nothing else changes. At `SP = STACK_SIZE - 1` it
raises StackOverflow (a fault is a next state with its bit latched in `STATUS`: log entry 5, D15, D16); `SP` and the stack
are unchanged. -/
def Obligations.PshPushesOrOverflows : Prop :=
  ∀ (rs : Reg) (s : State),
    (s.sp.toNat < s.cfg.stackSize - 1 → ∃ t, exec (.psh rs) s = .next t ∧
      t = { s with sp := t.sp, stack := t.stack } ∧ t.sp = s.sp + 1 ∧
      (s.stack.wf → t.readStack s.sp.toNat = s.readReg rs) ∧
      ∀ j, j ≠ s.sp.toNat → t.readStack j = s.readStack j) ∧
    (s.sp.toNat = s.cfg.stackSize - 1 → FaultsWith (exec (.psh rs) s) s .stackOverflow)

/-- R82, in `POP rd` (R85). With a live entry the pop completes: `x[rd]` holds the top entry, `SP` is one less, and
nothing else changes. At `SP = 0` it raises StackUnderflow (a fault is a next state with its bit latched in `STATUS`: log
entry 5, D15, D16); `SP` and `x[rd]` are unchanged. -/
def Obligations.PopPopsOrUnderflows : Prop :=
  ∀ (rd : Reg) (s : State),
    (0 < s.sp.toNat → s.sp.toNat ≤ s.cfg.stackSize → ∃ t, exec (.pop rd) s = .next t ∧
      t = { s with regs := t.regs, sp := t.sp } ∧ t.sp = s.sp - 1 ∧
      t.readReg rd = s.readStack (s.sp.toNat - 1) ∧ ∀ r, r ≠ rd → t.readReg r = s.readReg r) ∧
    (s.sp.toNat = 0 → FaultsWith (exec (.pop rd) s) s .stackUnderflow)

/-- R90. `CAL t` with room on the stack completes: the `IP` it sees is pushed, `SP` is one more, `IP` holds the target,
and nothing else changes. At `SP = STACK_SIZE - 1` it raises StackOverflow (a fault is a next state with its bit latched
in `STATUS`: log entry 5, D15, D16); `IP` stays as advanced and the stack is unchanged. -/
def Obligations.CalPushesReturnAddressAndJumps : Prop :=
  ∀ (a : BitVec 10) (s : State),
    (s.sp.toNat < s.cfg.stackSize - 1 → ∃ t, exec (.cal a) s = .next t ∧
      t = { s with ip := t.ip, sp := t.sp, stack := t.stack } ∧
      t.ip.toNat = a.toNat ∧ t.sp = s.sp + 1 ∧
      (s.stack.wf → t.readStack s.sp.toNat = s.ip) ∧
      ∀ j, j ≠ s.sp.toNat → t.readStack j = s.readStack j) ∧
    (s.sp.toNat = s.cfg.stackSize - 1 → FaultsWith (exec (.cal a) s) s .stackOverflow)

/-- R91. `RET` with a live entry completes: `IP` holds the top entry, `SP` is one less, and nothing else changes. At `SP =
0` it raises StackUnderflow (a fault is a next state with its bit latched in `STATUS`: log entry 5, D15, D16) and `IP`
stays as advanced. -/
def Obligations.RetPopsIntoIp : Prop :=
  ∀ (s : State),
    (0 < s.sp.toNat → s.sp.toNat ≤ s.cfg.stackSize → ∃ t, exec .ret s = .next t ∧
      t = { s with ip := t.ip, sp := t.sp } ∧ t.sp = s.sp - 1 ∧ t.ip = s.readStack (s.sp.toNat - 1)) ∧
    (s.sp.toNat = 0 → FaultsWith (exec .ret s) s .stackUnderflow)

/-- R92. `JLT rd, t` completes in every state: `IP` holds the target exactly when `A < x[rd]` as unsigned numbers, else it
stays as advanced; nothing else changes. -/
def Obligations.JltBranchesOnUnsignedLess : Prop :=
  ∀ (rd : Reg) (a : BitVec 10) (s : State), ∃ t, exec (.jlt rd a) s = .next t ∧
    t = { s with ip := t.ip } ∧
    ((s.readReg .a).toNat < (s.readReg rd).toNat → t.ip.toNat = a.toNat) ∧
    ((s.readReg rd).toNat ≤ (s.readReg .a).toNat → t.ip = s.ip)

/-- R93. `HLT` completes in every state: `STATUS.HALTED` is set, in a running core it is the only bit (`0x0001`, the
position by the spec's own decision D16), and nothing else changes; a step after it changes nothing (D15, log entry 6). -/
def Obligations.HltSetsHalted : Prop :=
  ∀ (s : State), ∃ t, exec .hlt s = .next t ∧
    t = { s with status := t.status } ∧ t.halted = true ∧ (s.status = 0 → t.status = 0x0001) ∧ step t = .next t

/-- R102. `OUT rs, f` completes in every state, for every format: the event `(f, x[rs])` is appended to the output
channel, and nothing else changes. -/
def Obligations.OutAppendsEvent : Prop :=
  ∀ (rs : Reg) (f : BitVec 8) (s : State), ∃ t, exec (.out rs f) s = .next t ∧
    t = { s with out := t.out } ∧ t.out = s.out ++ [{ fmt := f, value := s.readReg rs }]

/-- R59. The illegal opcodes raise UnknownOpcode with no other state change; in a running core `STATUS` is then `0x0008`
(the spec's own decisions D15, D16: the latch and its bit; a fault is a next state: log entry 5). -/
def Obligations.UnknownOpcodesRaiseFault : Prop :=
  ∀ (i : Instr) (s : State), i = .unknown13 ∨ i = .unknown14 ∨ i = .unknown15 →
    ∃ t, exec i s = .next t ∧ t = { s with status := t.status } ∧ t.raised .unknownOpcode = true ∧
      (s.status = 0 → t.status = 0x0008)

/-- R63 (order by the spec's own decision D12). In a running core with `IP` inside the program, a step is the execute
of the instruction decoded from the word at `IP`, in the state whose `IP` has been advanced by one, wrapping. -/
def Obligations.StepRunsDecodedInstruction : Prop :=
  ∀ (s : State) (i : Instr), s.running = true → s.ip.toNat < s.cfg.progSize →
    decode (s.prog.read s.ip.toNat) = i → step s = exec i { s with ip := s.ip + 1 }

/-- R63, the spec's own decision D12 (a fault is a next state with its bit latched in `STATUS`: log entry 5, D15, D16). A
fetch at `IP >= PROG_SIZE` leaves everything but `STATUS`, `IP` too, and sets `STATUS` to `0x0040`. -/
def Obligations.FetchOutsideProgramFaults : Prop :=
  ∀ (s : State), s.status = 0 → s.cfg.progSize ≤ s.ip.toNat → step s = .next { s with status := 0x0040 }

/-- R110, the spec's own decision D15 (a step of a stopped core answers the same state: log entry 6). While `STATUS` is
not 0 no number of steps changes anything. -/
def Obligations.StoppedCoreStaysStopped : Prop :=
  ∀ (s : State) (n : Nat), s.readStatus ≠ 0 → Sys2Proof.core.run n s = .next s

/-- R109, the spec's own decision D15 (a fault is a next state: log entry 5; its bit: D16). Whatever the instruction, a
fault leaves everything but `STATUS` as it was, and `STATUS` with one fault bit. -/
def Obligations.FaultsArePrecise : Prop :=
  ∀ (i : Instr) (s t : State), s.status = 0 → exec i s = .next t → t.faulted = true →
    t = { s with status := t.status } ∧ ∃ c : Cause, t.status.toNat = 2 ^ c.code

/-- R108 and R22 (codes and positions by the spec's own decision D16, the latch by D15; a fault is a next state: log entry
5). A fault raised in a running core leaves in `STATUS` its cause's one bit, and leaves everything else as it was. -/
def Obligations.EachCauseSetsItsStatusBit : Prop :=
  ∀ (c : Cause) (s : State), s.status = 0 →
    raiseFault c s = .next { s with
      status :=
        match c with
        | .stackOverflow    => 0x0002
        | .stackUnderflow   => 0x0004
        | .unknownOpcode    => 0x0008
        | .divisionByZero   => 0x0010
        | .memoryOutOfRange => 0x0020
        | .fetchOutOfRange  => 0x0040 }

/-- R108 and R111, the cause read off `STATUS` (log entry 5; D15, D16). The cause an instruction raises is the one cause
the table gives it, and then it is the cause `STATUS` shows. -/
def Obligations.EachInstructionHasOneCause : Prop :=
  ∀ (i : Instr) (s t : State) (c : Cause), s.status = 0 → exec i s = .next t →
    (t.raised c = true → faultOf i = some c ∧ t.cause = some c)

/-- After R11 and R61, in the model's reading of them: the typed result of an execute is `State.outcome`, read off the
`STATUS` of the next state (log entry 5, DEDUCED; `STATUS` and its bits by the spec's own decisions D15 and D16). In a
running core it is Halt exactly for `HLT`, a fault exactly when a fault bit is set, and where it is Continue, `STATUS` is
still 0. -/
def Obligations.OnlyHltHalts : Prop :=
  ∀ (i : Instr) (s t : State), s.status = 0 → exec i s = .next t →
    (t.outcome = .halts ↔ i = .hlt) ∧
    ((∃ c, t.outcome = .faults c) ↔ t.faulted = true) ∧
    (t.outcome = .continues → t.status = 0)

/-- R112, the fault read off `STATUS` (log entry 5; D15, D16). After a step that faulted, the address computed from the
state is the address the step fetched at. -/
def Obligations.FaultAddressIsFetchAddress : Prop :=
  ∀ (s t : State), s.status = 0 → step s = .next t → t.faulted = true → t.faultAddress = s.ip

/-- Every instruction, with every operand, is decoded back from its encoding: no bit of an operand is dropped. -/
def Obligations.DecodeEncodeAgree : Prop :=
  ∀ (i : Instr), decode (encode i) = i

/-- R53, the spec's own decision D19. Words that agree on the bits their opcode uses are the same instruction. -/
def Obligations.IgnoredBitsDoNotMatter : Prop :=
  ∀ (w v : Word), w &&& usedBits (split w).opcode = v &&& usedBits (split w).opcode → decode w = decode v

/-- R47 and R48 (positions by the spec's own decision D3). The fields are the parts of the word's number at their
positions, and `high8` and `rs` are parts of `high10`. -/
def Obligations.FieldsStandAtTheirBits : Prop :=
  ∀ (w : Word),
    (split w).opcode.toNat = w.toNat % 16 ∧ (split w).rd.toNat = w.toNat / 16 % 4 ∧
    (split w).rs.toNat = w.toNat / 64 % 4 ∧ (split w).high8.toNat = w.toNat / 256 ∧
    (split w).high10.toNat = w.toNat / 64 ∧
    (split w).high8.toNat = (split w).high10.toNat / 4 ∧ (split w).rs.toNat = (split w).high10.toNat % 4

/-- R59. A word decodes to an illegal instruction exactly when its opcode is 13, 14 or 15, whatever its other bits, and a
step that fetches it advances `IP`, sets `STATUS` to `0x0008` (the spec's own decisions D15, D16; a fault is a next state:
log entry 5) and changes nothing else. -/
def Obligations.UnknownOpcodeWordsFault : Prop :=
  ∀ (w : Word),
    (13 ≤ w.toNat % 16 ↔ decode w = .unknown13 ∨ decode w = .unknown14 ∨ decode w = .unknown15) ∧
    ∀ (s : State), s.status = 0 → s.ip.toNat < s.cfg.progSize → s.prog.read s.ip.toNat = w → 13 ≤ w.toNat % 16 →
      step s = .next { s with ip := s.ip + 1, status := 0x0008 }

/-- Words of 95_test_vectors.md and of spec/opcode_table.json, one or more of each family, decode to what they stand for. -/
def Obligations.SampleWordsDecode : Prop :=
  decode 0x0100 = .cal 4 ∧ decode 0x0001 = .ret ∧ decode 0x0042 = .mov .a .b ∧ decode 0x0083 = .ldv .a 2 ∧
  decode 0x1904 = .ldr .a 100 ∧ decode 0x1935 = .ldm .d 100 ∧ decode 0xF846 = .athAdd .a .b .rs ∧
  decode 0x0516 = .athSub .b .a .rd ∧ decode 0x0646 = .athMul .a .b .rd ∧ decode 0x0316 = .athDiv .b .a .rs ∧
  decode 0x0457 = .sft .b .right 4 ∧ decode 0xFF38 = .psh .a ∧ decode 0x0019 = .pop .b ∧
  decode 0xFFDA = .jlt .b 1023 ∧ decode 0xC8CB = .out .d 200 ∧ decode 0xFFFC = .hlt ∧ decode 0xFFFF = .unknown15

/-- The invariant: sizes in range, `SP` at most `STACK_SIZE - 1` (R19), `STATUS` legal with at most one bit and reserved
bits 0 (R23), and data memory, stack and program store in canonical form within their sizes (R20, R24, R25), is kept by
every step from every state that meets it. -/
def Obligations.StepKeepsInvariant : Prop :=
  ∀ (s t : State), s.Inv → step s = .next t → t.Inv

/-- From every state that meets the invariant a step answers a next state: it neither stops nor is refused. A fault, and a
step of a stopped core, is a next state in the model (log entries 5 and 6). -/
def Obligations.StepAlwaysCompletes : Prop :=
  ∀ (s : State), s.Inv → ∃ t, step s = .next t

/-- The invariant holds at `State.reset`, at every launch whose sizes and arrays are within R7's ranges, and after the
reset transaction in any state that meets it. What `State.reset` lists and its sizes are the model's choice (log entries
1 to 4). -/
def Obligations.ResetMeetsInvariant : Prop :=
  State.reset.Inv ∧
  (∀ (cfg : Config) (prog mem stack : Memory), cfg.wf → prog.within cfg.progSize → mem.within cfg.memSize →
    stack.within cfg.stackSize → (State.launch cfg prog mem stack).Inv) ∧
  (∀ (s : State) (cells : Memory), s.Inv → cells.within s.cfg.stackSize → (s.applyReset cells).Inv)

/-- R20. Stack cells at `SP` and above cannot be seen: two states that differ in nothing else take steps to states that
differ in nothing else. -/
def Obligations.DeadStackCellsAreUnobservable : Prop :=
  ∀ (s s' t : State), SameButDeadCells s s' → step s = .next t →
    ∃ t', step s' = .next t' ∧ SameButDeadCells t t'

/-- R123, the spec's own decision D18. The reset transaction, in any state, stopped ones too, leaves registers, `IP`,
`SP` and `STATUS` 0 and the output channel empty, and keeps the data memory, the program store and the sizes; the
core is then running. -/
def Obligations.ResetGivesResetValues : Prop :=
  ∀ (s : State) (cells : Memory), ∃ t, transact (.rst cells) s = .next t ∧
    (∀ r, t.readReg r = 0) ∧ t.ip = 0 ∧ t.sp = 0 ∧ t.status = 0 ∧ t.out = [] ∧
    (∀ a, t.readMem a = s.readMem a) ∧ t.prog = s.prog ∧ t.cfg = s.cfg ∧ t.running = true

/-- R124. After the reset transaction the first step executes the word at program address 0, with `IP = 1`. -/
def Obligations.FirstStepFetchesAtZero : Prop :=
  ∀ (s : State) (cells : Memory), 0 < s.cfg.progSize →
    step (s.applyReset cells) = exec (decode (s.prog.read 0)) { s.applyReset cells with ip := 1 }

/-- R23, the spec's own decision D15 (a step of a stopped core answers the same state: log entry 6). A step clears no bit
of `STATUS`, and sets none but from `STATUS = 0`. -/
def Obligations.StatusBitsAreSticky : Prop :=
  ∀ (s t : State), step s = .next t →
    s.readStatus &&& t.readStatus = s.readStatus ∧ (s.readStatus ≠ 0 → t.readStatus = s.readStatus)

/-- R18. In a step that executes a word, `IP` ends as the run loop advanced it, or `CAL`, `RET` or a taken `JLT` wrote it:
`CAL` and `JLT` with their target, `RET` with the entry it popped. -/
def Obligations.OnlyTransfersWriteIp : Prop :=
  ∀ (s t : State), s.running = true → s.ip.toNat < s.cfg.progSize → step s = .next t →
    t.ip = s.ip + 1 ∨
    (∃ a, decode (s.prog.read s.ip.toNat) = .cal a ∧ t.ip.toNat = a.toNat) ∨
    (decode (s.prog.read s.ip.toNat) = .ret ∧ t.ip = s.readStack (s.sp.toNat - 1)) ∨
    (∃ rd a, decode (s.prog.read s.ip.toNat) = .jlt rd a ∧
      (s.readReg .a).toNat < (s.readReg rd).toNat ∧ t.ip.toNat = a.toNat)

/-- R86. No instruction but `PSH`, `POP`, `CAL` and `RET` changes `SP` or a stack cell. -/
def Obligations.OnlyStackInstructionsTouchStack : Prop :=
  ∀ (i : Instr) (s t : State), exec i s = .next t → usesStack i = false →
    t.sp = s.sp ∧ ∀ j, t.readStack j = s.readStack j

/-- R87. A push, by `PSH` or `CAL`, changes no cell at an index `STACK_SIZE - 1` or above. -/
def Obligations.LastStackCellIsNeverWritten : Prop :=
  ∀ (i : Instr) (s t : State) (j : Nat), exec i s = .next t → s.cfg.stackSize - 1 ≤ j →
    t.readStack j = s.readStack j

/-- R15. An instruction changes no general register but the one the table names for it. -/
def Obligations.OnlyDestinationRegisterChanges : Prop :=
  ∀ (i : Instr) (s t : State) (r : Reg), exec i s = .next t → destReg i ≠ some r → t.readReg r = s.readReg r

/-- Every instruction leaves every data cell unchanged but the one at the address it stores to, which is `LDM`'s
effective address, `zext_W(high10)`. -/
def Obligations.OnlyLdmStoresToMemory : Prop :=
  ∀ (i : Instr) (s t : State) (b : Nat), exec i s = .next t → storeAddress i ≠ some b → t.readMem b = s.readMem b

/-- R43 and R25, the spec's own decision D11. No step changes the program store, nor the sizes. -/
def Obligations.ProgramStoreIsNeverWritten : Prop :=
  ∀ (s t : State), step s = .next t → t.prog = s.prog ∧ t.cfg = s.cfg

/-- R105. Every execute appends to the output channel the events of its instruction, one for `OUT` and none for any
other, and changes nothing already in it. -/
def Obligations.OutputIsAppendOnly : Prop :=
  ∀ (i : Instr) (s t : State), exec i s = .next t → t.out = s.out ++ emits i s

/-- R94. `CAL` to any target and a `RET` from any state whose `SP` and top entry are as `CAL` left them restore `IP` and
`SP`. -/
def Obligations.CallThenReturnRestoresIp : Prop :=
  ∀ (a : BitVec 10) (s : State), s.cfg.wf → s.stack.wf → s.sp.toNat < s.cfg.stackSize - 1 →
    ∃ s1, exec (.cal a) s = .next s1 ∧
      ∀ s2 : State, s2.sp = s1.sp → s2.cfg = s1.cfg →
        s2.readStack (s1.sp.toNat - 1) = s1.readStack (s1.sp.toNat - 1) →
        ∃ t, exec .ret s2 = .next t ∧ t.ip = s.ip ∧ t.sp = s.sp

/-- R83 (a). A push followed by a pop returns the value pushed and leaves `SP` as it was. -/
def Obligations.PushThenPopReturnsValue : Prop :=
  ∀ (rs rd : Reg) (s : State), s.cfg.wf → s.stack.wf → s.sp.toNat < s.cfg.stackSize - 1 →
    ∃ s1 t, exec (.psh rs) s = .next s1 ∧ exec (.pop rd) s1 = .next t ∧
      t.readReg rd = s.readReg rs ∧ t.sp = s.sp

/-- R83 (d), (e). From `SP = 0`, `STACK_SIZE - 1` pushes succeed, `SP` counting them, and the next raises StackOverflow (a
fault is a next state with its bit latched in `STATUS`: log entry 5, D15, D16). -/
def Obligations.PushesFillStackThenOverflow : Prop :=
  ∀ (r : Reg) (s : State), s.cfg.wf → s.status = 0 → s.sp = 0 →
    (∀ n, n ≤ s.cfg.stackSize - 1 → ∃ t, pushTimes r n s = .next t ∧ t.sp.toNat = n ∧ t.status = 0) ∧
    ∃ t, pushTimes r s.cfg.stackSize s = .next t ∧ t.sp.toNat = s.cfg.stackSize - 1 ∧ t.status = 0x0002

/-- R37. With `MEM_SIZE` 1024 or more no `LDR` or `LDM` raises MemoryOutOfRange: each leaves `STATUS` as it was. -/
def Obligations.LargeMemoryNeverFaults : Prop :=
  ∀ (rd : Reg) (a : BitVec 10) (s : State), 1024 ≤ s.cfg.memSize →
    (∃ t, exec (.ldr rd a) s = .next t ∧ t.status = s.status) ∧
    (∃ t, exec (.ldm rd a) s = .next t ∧ t.status = s.status)

/-- R89. A transfer (`CAL`, `RET` or a taken `JLT`) to a target outside the program is not checked when `IP` is written:
it completes with `STATUS` still 0, the next step raises FetchOutOfRange, and `IP` still holds the target (the fetch
check and the kept `IP` are the spec's own decision D12; a fault is a next state with its bit latched in `STATUS`: log
entry 5, D15, D16). -/
def Obligations.TransferOutsideProgramFaultsAtFetch : Prop :=
  ∀ (s : State), s.status = 0 →
    (∀ (a : BitVec 10), s.sp.toNat < s.cfg.stackSize - 1 → s.cfg.progSize ≤ a.toNat →
      TransfersOutOfProgram (.cal a) s a.toNat) ∧
    (0 < s.sp.toNat → s.sp.toNat ≤ s.cfg.stackSize →
      s.cfg.progSize ≤ (s.readStack (s.sp.toNat - 1)).toNat →
      TransfersOutOfProgram .ret s (s.readStack (s.sp.toNat - 1)).toNat) ∧
    (∀ (rd : Reg) (a : BitVec 10), (s.readReg .a).toNat < (s.readReg rd).toNat → s.cfg.progSize ≤ a.toNat →
      TransfersOutOfProgram (.jlt rd a) s a.toNat)

/-- R14 and R30. A register write stores its input modulo 2^16, never negative, and a read returns it (R14); no other
register, `IP` or `SP` changes with it (R30, which the spec derives from R13, R16 and R19). -/
def Obligations.RegisterWritesWrap : Prop :=
  ∀ (s : State) (r : Reg) (v : Int),
    (((s.writeReg r v).readReg r).toNat : Int) = v % 2 ^ 16 ∧
    (∀ q, q ≠ r → (s.writeReg r v).readReg q = s.readReg q) ∧
    (s.writeReg r v).ip = s.ip ∧ (s.writeReg r v).sp = s.sp

/-- R35. A cell reads as it was written, wrapped, where memory keeps its canonical form; a write changes no other cell and
keeps the canonical form. -/
def Obligations.MemoryReadsWhatWasWritten : Prop :=
  ∀ (s : State) (a : Nat) (v : Int),
    (∀ b, b ≠ a → (s.writeMem a v).readMem b = s.readMem b) ∧
    (s.mem.wf → (s.writeMem a v).readMem a = wrap v ∧ (s.writeMem a v).mem.wf)

/-- R65 and R105. The output ports of a step carry exactly the event the step appends to the output channel. -/
def Obligations.OutputPortsCarryTheEvent : Prop :=
  ∀ (s t : State), step s = .next t →
    (s.ports.outValid = false → t.out = s.out) ∧
    (s.ports.outValid = true → ∃ f v, s.ports.outFmt = some f ∧ s.ports.outData = some v ∧
      t.out = s.out ++ [{ fmt := f, value := v }])

/-- R65 and R99. A step changes a data cell only with `mem_we` set, and then at most the cell at `mem_addr`, which in a
step that does not fault holds `mem_wdata` (where memory keeps its canonical form). -/
def Obligations.MemoryPortsCarryTheStore : Prop :=
  ∀ (s t : State), s.status = 0 → step s = .next t →
    (s.ports.memWe = false → ∀ b, t.readMem b = s.readMem b) ∧
    (s.ports.memWe = true → ∃ a v, s.ports.memAddr = some a ∧ s.ports.memWdata = some v ∧
      (∀ b, b ≠ a.toNat → t.readMem b = s.readMem b) ∧
      (s.mem.wf → t.faulted = false → t.readMem a.toNat = v))

/-- R103. The one text the source fixes, `RENDER(0, 8) = "8"`: an output channel with that one event prints `8`. -/
def Obligations.DecimalEightPrintsEight : Prop :=
  ∀ (s : State), s.out = [{ fmt := 0, value := 8 }] → s.outText = "8"
end

