-- ==== Sys2Proof/Laws/Decode.lean ====
section
/-! SUPPORT. The laws of the field splitter on encoded words (R47, R67), and of the indices of registers. -/

namespace Sys2Proof

theorem split_opcode_toNat (w : Word) : (split w).opcode.toNat = w.toNat % 16 := by
  simp [split, BitVec.extractLsb'_toNat]

theorem split_rd_toNat (w : Word) : (split w).rd.toNat = w.toNat / 16 % 4 := by
  simp [split, BitVec.extractLsb'_toNat, Nat.shiftRight_eq_div_pow]

theorem split_rs_toNat (w : Word) : (split w).rs.toNat = w.toNat / 64 % 4 := by
  simp [split, BitVec.extractLsb'_toNat, Nat.shiftRight_eq_div_pow]

theorem split_high8_toNat (w : Word) : (split w).high8.toNat = w.toNat / 256 := by
  have := w.isLt
  simp [split, BitVec.extractLsb'_toNat, Nat.shiftRight_eq_div_pow]
  omega

theorem split_high10_toNat (w : Word) : (split w).high10.toNat = w.toNat / 64 := by
  have := w.isLt
  simp [split, BitVec.extractLsb'_toNat, Nat.shiftRight_eq_div_pow]
  omega

theorem encR_toNat {opc : Nat} (ho : opc < 16) (rd rs : BitVec 2) (h8 : BitVec 8) :
    (encR opc rd rs h8).toNat = h8.toNat * 256 + rs.toNat * 64 + rd.toNat * 16 + opc := by
  have := rd.isLt
  have := rs.isLt
  have := h8.isLt
  simp only [encR, BitVec.toNat_ofNat]
  omega

theorem encI_toNat {opc : Nat} (ho : opc < 16) (rd : BitVec 2) (h10 : BitVec 10) :
    (encI opc rd h10).toNat = h10.toNat * 64 + rd.toNat * 16 + opc := by
  have := rd.isLt
  have := h10.isLt
  simp only [encI, BitVec.toNat_ofNat]
  omega

/-- A format R word splits into the fields it was made of (R47, R67). -/
theorem split_encR {opc : Nat} (ho : opc < 16) (rd rs : BitVec 2) (h8 : BitVec 8) :
    (split (encR opc rd rs h8)).opcode.toNat = opc ∧ (split (encR opc rd rs h8)).rd = rd ∧
    (split (encR opc rd rs h8)).rs = rs ∧ (split (encR opc rd rs h8)).high8 = h8 := by
  have hw := encR_toNat ho rd rs h8
  have h1 := rd.isLt
  have h2 := rs.isLt
  have h3 := h8.isLt
  refine ⟨?_, BitVec.eq_of_toNat_eq ?_, BitVec.eq_of_toNat_eq ?_, BitVec.eq_of_toNat_eq ?_⟩
  · rw [split_opcode_toNat, hw]
    omega
  · rw [split_rd_toNat, hw]
    omega
  · rw [split_rs_toNat, hw]
    omega
  · rw [split_high8_toNat, hw]
    omega

/-- A format I word splits into the fields it was made of (R47, R67). -/
theorem split_encI {opc : Nat} (ho : opc < 16) (rd : BitVec 2) (h10 : BitVec 10) :
    (split (encI opc rd h10)).opcode.toNat = opc ∧ (split (encI opc rd h10)).rd = rd ∧
    (split (encI opc rd h10)).high10 = h10 := by
  have hw := encI_toNat ho rd h10
  have h1 := rd.isLt
  have h2 := h10.isLt
  refine ⟨?_, BitVec.eq_of_toNat_eq ?_, BitVec.eq_of_toNat_eq ?_⟩
  · rw [split_opcode_toNat, hw]
    omega
  · rw [split_rd_toNat, hw]
    omega
  · rw [split_high10_toNat, hw]
    omega

/-- A register is the one its index selects (R13). -/
@[simp] theorem Reg.ofIndex_index (r : Reg) : Reg.ofIndex r.index = r := by cases r <;> rfl

@[simp] theorem Dir.ofField_field (d : Dir) : Dir.ofField d.field = d := by cases d <;> rfl

/-- The decoder on a word whose fields are known (R60). -/
theorem decode_of_resolve {w : Word} {op : Op} (h : resolve (split w).opcode = some op) :
    decode w = decodeOp op (split w) := by
  simp [decode, h]

/-- The decoder on a word whose opcode is unknown (R59). -/
theorem decode_of_unknown {w : Word} (h : resolve (split w).opcode = none) :
    decode w = decodeUnknown (split w).opcode := by
  simp [decode, h]

/-- The resolver knows exactly the opcodes below 13 (R58, R59). -/
theorem resolve_eq_none_iff (o : BitVec 4) : resolve o = none ↔ 13 ≤ o.toNat := by
  revert o
  decide

end Sys2Proof
end

