-- ==== Sys2Proof/Laws/Memory.lean ====
section
/-! SUPPORT. The laws of arrays of cells: a read after a write, the canonical form, and equal contents. -/

namespace Sys2Proof.Machine

@[simp] theorem Memory.read_nil (a : Nat) : Memory.read [] a = Memory.unlisted := rfl

theorem Memory.read_cons (k : Nat) (w : Word) (m : Memory) (a : Nat) :
    Memory.read ((k, w) :: m) a = if k = a then w else Memory.read m a := rfl

theorem Memory.wf_nil : Memory.wf [] := ⟨List.Pairwise.nil, by simp⟩

theorem Memory.wf_cons {k : Nat} {w : Word} {m : Memory} :
    Memory.wf ((k, w) :: m) ↔ (∀ p ∈ m, k < p.1) ∧ w ≠ Memory.unlisted ∧ Memory.wf m := by
  simp only [Memory.wf, List.pairwise_cons, List.mem_cons, forall_eq_or_imp]
  tauto

/-- A cell below every listed one is unlisted. -/
theorem Memory.read_below {m : Memory} {a : Nat} (h : ∀ p ∈ m, a < p.1) : m.read a = Memory.unlisted := by
  induction m with
  | nil => rfl
  | cons p m ih =>
    obtain ⟨k, w⟩ := p
    have hk : a < k := h (k, w) (by simp)
    rw [Memory.read_cons, if_neg (by omega)]
    exact ih fun q hq => h q (by simp [hq])

theorem Memory.read_entry_ne {a b : Nat} (h : b ≠ a) (v : Word) (m : Memory) :
    (Memory.entry a v m).read b = m.read b := by
  unfold Memory.entry
  split
  · rfl
  · rw [Memory.read_cons, if_neg (Ne.symm h)]

theorem Memory.read_entry_same {a : Nat} {m : Memory} (h : ∀ p ∈ m, a < p.1) (v : Word) :
    (Memory.entry a v m).read a = v := by
  unfold Memory.entry
  split
  · next hv => rw [Memory.read_below h, hv]
  · rw [Memory.read_cons, if_pos rfl]

/-- A write leaves every other cell alone. -/
theorem Memory.read_write_ne {a b : Nat} (h : b ≠ a) (m : Memory) (v : Word) :
    (m.write a v).read b = m.read b := by
  induction m with
  | nil => exact Memory.read_entry_ne h v []
  | cons p m ih =>
    obtain ⟨k, w⟩ := p
    simp only [Memory.write]
    split
    · exact Memory.read_entry_ne h v _
    · split
      · next hak => rw [Memory.read_entry_ne h, Memory.read_cons, if_neg (by omega)]
      · rw [Memory.read_cons, Memory.read_cons, ih]

/-- A cell reads as it was written. -/
theorem Memory.read_write_same {m : Memory} (h : m.wf) (a : Nat) (v : Word) : (m.write a v).read a = v := by
  induction m with
  | nil => exact Memory.read_entry_same (by simp) v
  | cons p m ih =>
    obtain ⟨k, w⟩ := p
    obtain ⟨hlt, -, hm⟩ := Memory.wf_cons.mp h
    simp only [Memory.write]
    split
    · next hak =>
      refine Memory.read_entry_same ?_ v
      intro q hq
      rcases List.mem_cons.mp hq with rfl | hq
      · exact hak
      · exact Nat.lt_trans hak (hlt q hq)
    · split
      · next hak => exact Memory.read_entry_same (by rw [hak]; exact hlt) v
      · rw [Memory.read_cons, if_neg (by omega), ih hm]

theorem Memory.mem_entry {a : Nat} {v : Word} {m : Memory} {p : Nat × Word} (h : p ∈ Memory.entry a v m) :
    p.1 = a ∨ p ∈ m := by
  unfold Memory.entry at h
  split at h
  · exact .inr h
  · rcases List.mem_cons.mp h with rfl | h
    · exact .inl rfl
    · exact .inr h

/-- A write lists no cell but the one written and those listed before. -/
theorem Memory.mem_write {a : Nat} {v : Word} {m : Memory} {p : Nat × Word} (h : p ∈ m.write a v) :
    p.1 = a ∨ p ∈ m := by
  induction m with
  | nil => exact Memory.mem_entry h
  | cons q m ih =>
    obtain ⟨k, w⟩ := q
    simp only [Memory.write] at h
    split at h
    · exact Memory.mem_entry h
    · split at h
      · exact (Memory.mem_entry h).imp_right (List.mem_cons_of_mem _)
      · rcases List.mem_cons.mp h with rfl | h
        · exact .inr (List.mem_cons_self ..)
        · exact (ih h).imp_right (List.mem_cons_of_mem _)

theorem Memory.wf_entry {a : Nat} {m : Memory} (h : m.wf) (ha : ∀ p ∈ m, a < p.1) (v : Word) :
    (Memory.entry a v m).wf := by
  unfold Memory.entry
  split
  · exact h
  · next hv => exact Memory.wf_cons.mpr ⟨ha, hv, h⟩

/-- A write keeps the canonical form. -/
theorem Memory.wf_write {m : Memory} (h : m.wf) (a : Nat) (v : Word) : (m.write a v).wf := by
  induction m with
  | nil => exact Memory.wf_entry h (by simp) v
  | cons p m ih =>
    obtain ⟨k, w⟩ := p
    obtain ⟨hlt, hw, hm⟩ := Memory.wf_cons.mp h
    simp only [Memory.write]
    split
    · next hak =>
      refine Memory.wf_entry h ?_ v
      intro q hq
      rcases List.mem_cons.mp hq with rfl | hq
      · exact hak
      · exact Nat.lt_trans hak (hlt q hq)
    · split
      · next hak => exact Memory.wf_entry hm (by rw [hak]; exact hlt) v
      · next h1 h2 =>
        refine Memory.wf_cons.mpr ⟨?_, hw, ih hm⟩
        intro q hq
        rcases Memory.mem_write hq with hq | hq
        · omega
        · exact hlt q hq

/-- Arrays in canonical form that read alike are the same data. -/
theorem Memory.eq_of_read_eq {m m' : Memory} (h : m.wf) (h' : m'.wf) (hr : ∀ a, m.read a = m'.read a) : m = m' := by
  induction m generalizing m' with
  | nil =>
    match m' with
    | [] => rfl
    | (k, w) :: _ =>
      have := hr k
      rw [Memory.read_nil, Memory.read_cons, if_pos rfl] at this
      exact absurd this.symm (Memory.wf_cons.mp h').2.1
  | cons p m ih =>
    obtain ⟨k, w⟩ := p
    obtain ⟨hlt, hw, hm⟩ := Memory.wf_cons.mp h
    match m' with
    | [] =>
      have := hr k
      rw [Memory.read_nil, Memory.read_cons, if_pos rfl] at this
      exact absurd this hw
    | (k', w') :: m' =>
      obtain ⟨hlt', hw', hm'⟩ := Memory.wf_cons.mp h'
      have hk : k = k' := by
        rcases Nat.lt_trichotomy k k' with hkk | hkk | hkk
        · have := hr k
          rw [Memory.read_cons, if_pos rfl, Memory.read_cons, if_neg (by omega),
            Memory.read_below fun q hq => Nat.lt_trans hkk (hlt' q hq)] at this
          exact absurd this hw
        · exact hkk
        · have := hr k'
          rw [Memory.read_cons, if_neg (by omega), Memory.read_cons, if_pos rfl,
            Memory.read_below fun q hq => Nat.lt_trans hkk (hlt q hq)] at this
          exact absurd this.symm hw'
      subst hk
      have hww : w = w' := by simpa [Memory.read_cons] using hr k
      subst hww
      rw [ih hm hm' fun a => ?_]
      by_cases ha : k = a
      · rw [Memory.read_below (a := a) fun q hq => ha ▸ hlt q hq,
          Memory.read_below (a := a) fun q hq => ha ▸ hlt' q hq]
      · simpa [Memory.read_cons, ha] using hr a

end Sys2Proof.Machine
end

