-- ==== Sys2Proof/Laws/Word.lean ====
section
/-! SUPPORT. The laws of `wrap` (R9). -/

namespace Sys2Proof

/-- The number `wrap` stores. -/
theorem wrap_toNat (v : Int) : (wrap v).toNat = (v % 2 ^ 16).toNat := by
  simp [wrap, BitVec.toNat_ofInt]

@[simp] theorem wrap_natCast (n : Nat) : wrap (n : Int) = BitVec.ofNat 16 n := by
  simp [wrap]

@[simp] theorem wrap_succ (v : Word) : wrap ((v.toNat : Int) + 1) = v + 1 := by
  apply BitVec.eq_of_toNat_eq
  rw [wrap_toNat, BitVec.toNat_add]
  simp
  omega

@[simp] theorem wrap_pred (v : Word) : wrap ((v.toNat : Int) - 1) = v - 1 := by
  apply BitVec.eq_of_toNat_eq
  rw [wrap_toNat, BitVec.toNat_sub]
  have := v.isLt
  simp
  omega

/-- A word and its number: `wrap` changes no value already in range (R9). -/
theorem wrap_word (v : Word) : wrap (v.toNat : Int) = v := by simp

end Sys2Proof
end

