-- ==== Sys2Proof/Laws/State.lean ====
section
/-! SUPPORT. One lemma per field and update of the state. -/

namespace Sys2Proof.Machine

variable (s : State) (r : Reg) (v : Int) (a : Nat) (w bit : Word) (f : BitVec 8) (c : Cause)

@[simp] theorem writeReg_ip : (s.writeReg r v).ip = s.ip := rfl
@[simp] theorem writeReg_sp : (s.writeReg r v).sp = s.sp := rfl
@[simp] theorem writeReg_stack : (s.writeReg r v).stack = s.stack := rfl
@[simp] theorem writeReg_mem : (s.writeReg r v).mem = s.mem := rfl
@[simp] theorem writeReg_status : (s.writeReg r v).status = s.status := rfl
@[simp] theorem writeReg_out : (s.writeReg r v).out = s.out := rfl
@[simp] theorem writeReg_prog : (s.writeReg r v).prog = s.prog := rfl
@[simp] theorem writeReg_cfg : (s.writeReg r v).cfg = s.cfg := rfl

@[simp] theorem writeIp_regs : (s.writeIp v).regs = s.regs := rfl
@[simp] theorem writeIp_ip : (s.writeIp v).ip = wrap v := rfl
@[simp] theorem writeIp_sp : (s.writeIp v).sp = s.sp := rfl
@[simp] theorem writeIp_stack : (s.writeIp v).stack = s.stack := rfl
@[simp] theorem writeIp_mem : (s.writeIp v).mem = s.mem := rfl
@[simp] theorem writeIp_status : (s.writeIp v).status = s.status := rfl
@[simp] theorem writeIp_out : (s.writeIp v).out = s.out := rfl
@[simp] theorem writeIp_prog : (s.writeIp v).prog = s.prog := rfl
@[simp] theorem writeIp_cfg : (s.writeIp v).cfg = s.cfg := rfl

@[simp] theorem writeSp_regs : (s.writeSp v).regs = s.regs := rfl
@[simp] theorem writeSp_ip : (s.writeSp v).ip = s.ip := rfl
@[simp] theorem writeSp_sp : (s.writeSp v).sp = wrap v := rfl
@[simp] theorem writeSp_stack : (s.writeSp v).stack = s.stack := rfl
@[simp] theorem writeSp_mem : (s.writeSp v).mem = s.mem := rfl
@[simp] theorem writeSp_status : (s.writeSp v).status = s.status := rfl
@[simp] theorem writeSp_out : (s.writeSp v).out = s.out := rfl
@[simp] theorem writeSp_prog : (s.writeSp v).prog = s.prog := rfl
@[simp] theorem writeSp_cfg : (s.writeSp v).cfg = s.cfg := rfl

@[simp] theorem writeMem_regs : (s.writeMem a v).regs = s.regs := rfl
@[simp] theorem writeMem_ip : (s.writeMem a v).ip = s.ip := rfl
@[simp] theorem writeMem_sp : (s.writeMem a v).sp = s.sp := rfl
@[simp] theorem writeMem_stack : (s.writeMem a v).stack = s.stack := rfl
@[simp] theorem writeMem_mem : (s.writeMem a v).mem = s.mem.write a (wrap v) := rfl
@[simp] theorem writeMem_status : (s.writeMem a v).status = s.status := rfl
@[simp] theorem writeMem_out : (s.writeMem a v).out = s.out := rfl
@[simp] theorem writeMem_prog : (s.writeMem a v).prog = s.prog := rfl
@[simp] theorem writeMem_cfg : (s.writeMem a v).cfg = s.cfg := rfl

@[simp] theorem writeStack_regs : (s.writeStack a v).regs = s.regs := rfl
@[simp] theorem writeStack_ip : (s.writeStack a v).ip = s.ip := rfl
@[simp] theorem writeStack_sp : (s.writeStack a v).sp = s.sp := rfl
@[simp] theorem writeStack_stack : (s.writeStack a v).stack = s.stack.write a (wrap v) := rfl
@[simp] theorem writeStack_mem : (s.writeStack a v).mem = s.mem := rfl
@[simp] theorem writeStack_status : (s.writeStack a v).status = s.status := rfl
@[simp] theorem writeStack_out : (s.writeStack a v).out = s.out := rfl
@[simp] theorem writeStack_prog : (s.writeStack a v).prog = s.prog := rfl
@[simp] theorem writeStack_cfg : (s.writeStack a v).cfg = s.cfg := rfl

@[simp] theorem emit_regs : (s.emit f w).regs = s.regs := rfl
@[simp] theorem emit_ip : (s.emit f w).ip = s.ip := rfl
@[simp] theorem emit_sp : (s.emit f w).sp = s.sp := rfl
@[simp] theorem emit_stack : (s.emit f w).stack = s.stack := rfl
@[simp] theorem emit_mem : (s.emit f w).mem = s.mem := rfl
@[simp] theorem emit_status : (s.emit f w).status = s.status := rfl
@[simp] theorem emit_out : (s.emit f w).out = s.out ++ [{ fmt := f, value := w }] := rfl
@[simp] theorem emit_prog : (s.emit f w).prog = s.prog := rfl
@[simp] theorem emit_cfg : (s.emit f w).cfg = s.cfg := rfl

@[simp] theorem setStatusBit_regs : (s.setStatusBit bit).regs = s.regs := rfl
@[simp] theorem setStatusBit_ip : (s.setStatusBit bit).ip = s.ip := rfl
@[simp] theorem setStatusBit_sp : (s.setStatusBit bit).sp = s.sp := rfl
@[simp] theorem setStatusBit_stack : (s.setStatusBit bit).stack = s.stack := rfl
@[simp] theorem setStatusBit_mem : (s.setStatusBit bit).mem = s.mem := rfl
@[simp] theorem setStatusBit_status : (s.setStatusBit bit).status = (s.readStatus ||| bit) &&& statusMask := rfl
@[simp] theorem setStatusBit_out : (s.setStatusBit bit).out = s.out := rfl
@[simp] theorem setStatusBit_prog : (s.setStatusBit bit).prog = s.prog := rfl
@[simp] theorem setStatusBit_cfg : (s.setStatusBit bit).cfg = s.cfg := rfl

@[simp] theorem advance_regs : s.advance.regs = s.regs := rfl
@[simp] theorem advance_ip : s.advance.ip = s.ip + 1 := wrap_succ s.ip
@[simp] theorem advance_sp : s.advance.sp = s.sp := rfl
@[simp] theorem advance_stack : s.advance.stack = s.stack := rfl
@[simp] theorem advance_mem : s.advance.mem = s.mem := rfl
@[simp] theorem advance_status : s.advance.status = s.status := rfl
@[simp] theorem advance_out : s.advance.out = s.out := rfl
@[simp] theorem advance_prog : s.advance.prog = s.prog := rfl
@[simp] theorem advance_cfg : s.advance.cfg = s.cfg := rfl

theorem latch_eq : s.latch c = s.setStatusBit c.bit := rfl
theorem halt_eq : s.halt = s.setStatusBit haltedBit := rfl

@[simp] theorem RegFile.get_set_same (g : RegFile) : (g.set r w).get r = w := by cases r <;> rfl

theorem RegFile.get_set_ne {q r : Reg} (h : q ≠ r) (g : RegFile) (w : Word) : (g.set r w).get q = g.get q := by
  cases r <;> cases q <;> first | rfl | exact absurd rfl h

/-- Register files that read alike are the same data. -/
theorem RegFile.eq_of_get_eq {g g' : RegFile} (h : ∀ r, g.get r = g'.get r) : g = g' := by
  obtain ⟨⟩ := g
  obtain ⟨⟩ := g'
  simpa [RegFile.get] using And.intro (h .a) (And.intro (h .b) (And.intro (h .c) (h .d)))

/-- A register reads as it was written, wrapped (R14). -/
@[simp] theorem readReg_writeReg_same : (s.writeReg r v).readReg r = wrap v := RegFile.get_set_same r (wrap v) s.regs

/-- A register write changes no other register (R30). -/
theorem readReg_writeReg_ne {q r : Reg} (h : q ≠ r) (s : State) (v : Int) :
    (s.writeReg r v).readReg q = s.readReg q := RegFile.get_set_ne h s.regs (wrap v)

end Sys2Proof.Machine
end

