-- ==== Sys2Proof/Laws/Ops.lean ====
section
/-! SUPPORT. What each shared operation can do, said once: raising a fault, push, pop, the address unit, what comes before an
execute, and the execute itself. -/

namespace Sys2Proof.Machine

theorem readStatus_of_zero {s : State} (h : s.status = 0) : s.readStatus = 0 := by
  simp [State.readStatus, h]

theorem running_iff (s : State) : s.running = true ↔ s.readStatus = 0 := by
  simp [State.running]

theorem running_of_zero {s : State} (h : s.status = 0) : s.running = true :=
  (running_iff s).mpr (readStatus_of_zero h)

/-- Latching a cause in a running core leaves exactly its bit (R108, R109). -/
theorem latch_status_of_zero {s : State} (h : s.status = 0) (c : Cause) : (s.latch c).status = c.bit := by
  rw [latch_eq, setStatusBit_status, readStatus_of_zero h]
  cases c <;> decide

theorem halt_status_of_zero {s : State} (h : s.status = 0) : s.halt.status = haltedBit := by
  rw [halt_eq, setStatusBit_status, readStatus_of_zero h]
  decide

/-- A latched cause reads as raised. -/
theorem raised_latch (s : State) (c : Cause) : (s.latch c).raised c = true := by
  have hc : c.bit &&& statusMask = c.bit := by cases c <;> decide
  have h : ∀ x : Word, ((x ||| c.bit) &&& statusMask) &&& statusMask &&& c.bit = c.bit := by
    intro x
    ext i hi
    have := congrArg (·[i]) hc
    simp only [BitVec.getElem_and, BitVec.getElem_or] at this ⊢
    cases hb : c.bit[i] <;> cases hm : statusMask[i] <;> simp_all
  simp only [State.raised, State.readStatus, latch_eq, setStatusBit_status]
  rw [h]
  cases c <;> decide

/-- `STATUS` bits are sticky (R23). -/
theorem readStatus_setStatusBit (s : State) (bit : Word) :
    s.readStatus &&& (s.setStatusBit bit).readStatus = s.readStatus := by
  simp only [State.readStatus, setStatusBit_status]
  ext i
  simp
  grind

/-- A push onto a full stack (R81). -/
theorem push_full {s : State} (h : s.sp.toNat = s.cfg.stackSize - 1) (v : Int) (rest : State → Result) :
    push v s rest = .next (s.latch .stackOverflow) := by
  simp [push, h, raiseFault]

/-- A push with room (R81). -/
theorem push_room {s : State} (h : s.sp.toNat < s.cfg.stackSize - 1) (v : Int) (rest : State → Result) :
    push v s rest = rest ((s.writeStack s.sp.toNat v).writeSp (s.sp.toNat + 1)) := by
  rw [push, if_neg (by omega), if_pos (by omega)]

/-- What a push that answers a next state has done. -/
theorem push_cases {v : Int} {s t : State} {rest : State → Result} (h : push v s rest = .next t) :
    (s.sp.toNat = s.cfg.stackSize - 1 ∧ t = s.latch .stackOverflow) ∨
    (s.sp.toNat < s.cfg.stackSize - 1 ∧ rest ((s.writeStack s.sp.toNat v).writeSp (s.sp.toNat + 1)) = .next t) := by
  unfold push at h
  split at h
  · next hs =>
    refine .inl ⟨hs, ?_⟩
    cases h
    rfl
  · split at h
    · exact .inr ⟨by omega, h⟩
    · cases h

/-- A pop of an empty stack (R82). -/
theorem pop_empty {s : State} (h : s.sp.toNat = 0) (rest : Word → State → Result) :
    pop s rest = .next (s.latch .stackUnderflow) := by
  simp [pop, h, raiseFault]

/-- A pop of a live entry (R82). -/
theorem pop_live {s : State} (h0 : 0 < s.sp.toNat) (h : s.sp.toNat - 1 < s.cfg.stackSize)
    (rest : Word → State → Result) :
    pop s rest = rest (s.readStack (s.sp.toNat - 1)) (s.writeSp (s.sp.toNat - 1)) := by
  rw [pop, if_neg (by omega), if_pos h]

/-- What a pop that answers a next state has done. -/
theorem pop_cases {s t : State} {rest : Word → State → Result} (h : pop s rest = .next t) :
    (s.sp.toNat = 0 ∧ t = s.latch .stackUnderflow) ∨
    (0 < s.sp.toNat ∧ s.sp.toNat - 1 < s.cfg.stackSize ∧
      rest (s.readStack (s.sp.toNat - 1)) (s.writeSp (s.sp.toNat - 1)) = .next t) := by
  unfold pop at h
  split at h
  · next hs =>
    refine .inl ⟨hs, ?_⟩
    cases h
    rfl
  · split at h
    · exact .inr ⟨by omega, by assumption, h⟩
    · cases h

@[simp] theorem zextW_toNat (v : BitVec 10) : (zextW v).toNat = v.toNat := by
  have := v.isLt
  simp [zextW]
  omega

/-- The address unit inside the memory (R36). -/
theorem withAddress_inside {a : BitVec 10} {s : State} (h : a.toNat < s.cfg.memSize) (rest : Nat → Result) :
    withAddress a s rest = rest a.toNat := by
  simp only [withAddress, zextW_toNat]
  rw [if_neg (by omega)]

/-- The address unit outside the memory (R36). -/
theorem withAddress_outside {a : BitVec 10} {s : State} (h : s.cfg.memSize ≤ a.toNat) (rest : Nat → Result) :
    withAddress a s rest = .next (s.latch .memoryOutOfRange) := by
  simp only [withAddress, zextW_toNat]
  rw [if_pos h]
  rfl

/-- What the address unit has done where the rule answers a next state. -/
theorem withAddress_cases {a : BitVec 10} {s t : State} {rest : Nat → Result} (h : withAddress a s rest = .next t) :
    (s.cfg.memSize ≤ a.toNat ∧ t = s.latch .memoryOutOfRange) ∨
    (a.toNat < s.cfg.memSize ∧ rest a.toNat = .next t) := by
  rcases Nat.lt_or_ge a.toNat s.cfg.memSize with ha | ha
  · exact .inr ⟨ha, withAddress_inside ha rest ▸ h⟩
  · rw [withAddress_outside ha] at h
    cases h
    exact .inl ⟨ha, rfl⟩

/-- What comes before an execute, in a running core inside its program (R63). -/
theorem issue_runs {s : State} (hr : s.running = true) (hi : s.ip.toNat < s.cfg.progSize) :
    issue s = .runs (s.prog.read s.ip.toNat) s.advance := by
  simp [issue, hr, State.fetch, hi]

/-- A running core that fetches outside its program (R63). -/
theorem issue_outside {s : State} (hr : s.running = true) (hi : s.cfg.progSize ≤ s.ip.toNat) :
    issue s = .ends (s.latch .fetchOutOfRange) := by
  simp [issue, hr, State.fetch, Nat.not_lt.mpr hi]

/-- A stopped core (R110). -/
theorem issue_stopped {s : State} (h : s.running = false) : issue s = .ends s := by
  simp [issue, h]

/-- What a step does, in the three cases of R63 and R110. -/
theorem step_cases (s : State) :
    (s.running = false ∧ step s = .next s) ∨
    (s.running = true ∧ s.cfg.progSize ≤ s.ip.toNat ∧ step s = .next (s.latch .fetchOutOfRange)) ∨
    (s.running = true ∧ s.ip.toNat < s.cfg.progSize ∧
      step s = exec (decode (s.prog.read s.ip.toNat)) s.advance) := by
  cases hr : s.running
  · exact .inl ⟨rfl, by simp [step, issue_stopped hr]⟩
  · rcases Nat.lt_or_ge s.ip.toNat s.cfg.progSize with hi | hi
    · exact .inr (.inr ⟨rfl, hi, by simp [step, issue_runs hr hi]⟩)
    · exact .inr (.inl ⟨rfl, hi, by simp [step, issue_outside hr hi]⟩)

/-- Everything an execute that answers a next state can have done: one constructor per kind of effect. -/
inductive Effect (s : State) : Instr → State → Prop where
  /-- a fault, and nothing of the instruction -/
  | raises (i : Instr) (c : Cause) (h : faultOf i = some c) : Effect s i (s.latch c)
  /-- one general register written -/
  | register (i : Instr) (r : Reg) (v : Int) (h : destReg i = some r) (hs : usesStack i = false) :
      Effect s i (s.writeReg r v)
  /-- one data cell written -/
  | stores (rd : Reg) (a : BitVec 10) (h : a.toNat < s.cfg.memSize) :
      Effect s (.ldm rd a) (s.writeMem a.toNat (s.readReg rd).toNat)
  /-- a register pushed -/
  | pushes (rs : Reg) (h : s.sp.toNat < s.cfg.stackSize - 1) :
      Effect s (.psh rs) ((s.writeStack s.sp.toNat (s.readReg rs).toNat).writeSp (s.sp.toNat + 1))
  /-- the return address pushed, then the call -/
  | calls (a : BitVec 10) (h : s.sp.toNat < s.cfg.stackSize - 1) :
      Effect s (.cal a)
        (((s.writeStack s.sp.toNat s.ip.toNat).writeSp (s.sp.toNat + 1)).writeIp (zextW a).toNat)
  /-- the top entry popped into a register -/
  | pops (rd : Reg) (h0 : 0 < s.sp.toNat) (h : s.sp.toNat - 1 < s.cfg.stackSize) :
      Effect s (.pop rd) ((s.writeSp (s.sp.toNat - 1)).writeReg rd (s.readStack (s.sp.toNat - 1)).toNat)
  /-- the top entry popped into `IP` -/
  | returns (h0 : 0 < s.sp.toNat) (h : s.sp.toNat - 1 < s.cfg.stackSize) :
      Effect s .ret ((s.writeSp (s.sp.toNat - 1)).writeIp (s.readStack (s.sp.toNat - 1)).toNat)
  /-- a branch taken -/
  | jumps (rd : Reg) (a : BitVec 10) (h : (s.readReg .a).toNat < (s.readReg rd).toNat) :
      Effect s (.jlt rd a) (s.writeIp (zextW a).toNat)
  /-- a branch not taken -/
  | falls (rd : Reg) (a : BitVec 10) (h : ¬(s.readReg .a).toNat < (s.readReg rd).toNat) : Effect s (.jlt rd a) s
  /-- an event emitted -/
  | prints (rs : Reg) (f : BitVec 8) : Effect s (.out rs f) (s.emit f (s.readReg rs))
  /-- the core halted -/
  | halts : Effect s .hlt s.halt

/-- The inversion of `exec`: a next state is the effect of one of those kinds. -/
theorem exec_effect {i : Instr} {s t : State} (h : exec i s = .next t) : Effect s i t := by
  cases i with
  | cal a =>
    simp only [exec, execCal] at h
    rcases push_cases h with ⟨-, rfl⟩ | ⟨hs, h⟩
    · exact .raises _ _ rfl
    · cases h
      exact .calls a hs
  | ret =>
    simp only [exec, execRet] at h
    rcases pop_cases h with ⟨-, rfl⟩ | ⟨h0, hs, h⟩
    · exact .raises _ _ rfl
    · cases h
      exact .returns h0 hs
  | mov rd rs =>
    cases h
    exact .register _ _ _ rfl rfl
  | ldv rd v =>
    cases h
    exact .register _ _ _ rfl rfl
  | ldr rd a =>
    simp only [exec, execLdr] at h
    rcases withAddress_cases h with ⟨-, rfl⟩ | ⟨-, h⟩
    · exact .raises _ _ rfl
    · cases h
      exact .register _ _ _ rfl rfl
  | ldm rd a =>
    simp only [exec, execLdm] at h
    rcases withAddress_cases h with ⟨-, rfl⟩ | ⟨ha, h⟩
    · exact .raises _ _ rfl
    · cases h
      exact .stores rd a ha
  | athAdd rd rs m =>
    cases h
    exact .register _ _ _ rfl rfl
  | athSub rd rs m =>
    cases h
    exact .register _ _ _ rfl rfl
  | athMul rd rs m =>
    cases h
    exact .register _ _ _ rfl rfl
  | athDiv rd rs m =>
    simp only [exec, execAthDiv] at h
    split at h
    · cases h
      exact .raises _ _ rfl
    · cases h
      exact .register _ _ _ rfl rfl
  | sft rs d n =>
    cases h
    exact .register _ _ _ rfl rfl
  | psh rs =>
    simp only [exec, execPsh] at h
    rcases push_cases h with ⟨-, rfl⟩ | ⟨hs, h⟩
    · exact .raises _ _ rfl
    · cases h
      exact .pushes rs hs
  | pop rd =>
    simp only [exec, execPop] at h
    rcases pop_cases h with ⟨-, rfl⟩ | ⟨h0, hs, h⟩
    · exact .raises _ _ rfl
    · cases h
      exact .pops rd h0 hs
  | jlt rd a =>
    simp only [exec, execJlt] at h
    split at h
    · next hlt =>
      cases h
      exact .jumps rd a hlt
    · next hge =>
      cases h
      exact .falls rd a hge
  | out rs f =>
    cases h
    exact .prints rs f
  | hlt =>
    cases h
    exact .halts
  | unknown13 =>
    cases h
    exact .raises _ _ rfl
  | unknown14 =>
    cases h
    exact .raises _ _ rfl
  | unknown15 =>
    cases h
    exact .raises _ _ rfl

end Sys2Proof.Machine
end

