-- ==== Sys2Proof/Laws/PerInstr.lean ====
section
/-! SUPPORT. The per-instruction family `OpcodeNumber`: the encoding of an instruction carries the opcode number that the
opcode map gives it (R58), whatever its operands. -/

namespace Sys2Proof.Laws.OpcodeNumber

/-- The low four bits of the instruction's word are its opcode. -/
def Statement (i : Instr) : Prop := (split (encode i)).opcode = i.opcode

theorem of_encR {opc : Nat} (ho : opc < 16) (rd rs : BitVec 2) (h8 : BitVec 8) :
    (split (encR opc rd rs h8)).opcode = BitVec.ofNat 4 opc :=
  BitVec.eq_of_toNat_eq (by rw [(split_encR ho rd rs h8).1, BitVec.toNat_ofNat]; omega)

theorem of_encI {opc : Nat} (ho : opc < 16) (rd : BitVec 2) (h10 : BitVec 10) :
    (split (encI opc rd h10)).opcode = BitVec.ofNat 4 opc :=
  BitVec.eq_of_toNat_eq (by rw [(split_encI ho rd h10).1, BitVec.toNat_ofNat]; omega)

theorem cal (t : BitVec 10) : Statement (.cal t) := of_encI (by decide) _ _
theorem ret : Statement .ret := rfl
theorem mov (rd rs : Reg) : Statement (.mov rd rs) := of_encR (by decide) _ _ _
theorem ldv (rd : Reg) (v : BitVec 10) : Statement (.ldv rd v) := of_encI (by decide) _ _
theorem ldr (rd : Reg) (a : BitVec 10) : Statement (.ldr rd a) := of_encI (by decide) _ _
theorem ldm (rd : Reg) (a : BitVec 10) : Statement (.ldm rd a) := of_encI (by decide) _ _
theorem athAdd (rd rs : Reg) (m : Dest) : Statement (.athAdd rd rs m) := of_encR (by decide) _ _ _
theorem athSub (rd rs : Reg) (m : Dest) : Statement (.athSub rd rs m) := of_encR (by decide) _ _ _
theorem athMul (rd rs : Reg) (m : Dest) : Statement (.athMul rd rs m) := of_encR (by decide) _ _ _
theorem athDiv (rd rs : Reg) (m : Dest) : Statement (.athDiv rd rs m) := of_encR (by decide) _ _ _
theorem sft (rs : Reg) (d : Dir) (n : BitVec 8) : Statement (.sft rs d n) := of_encR (by decide) _ _ _
theorem psh (rs : Reg) : Statement (.psh rs) := of_encR (by decide) _ _ _
theorem pop (rd : Reg) : Statement (.pop rd) := of_encR (by decide) _ _ _
theorem jlt (rd : Reg) (t : BitVec 10) : Statement (.jlt rd t) := of_encI (by decide) _ _
theorem out (rs : Reg) (f : BitVec 8) : Statement (.out rs f) := of_encR (by decide) _ _ _
theorem hlt : Statement .hlt := rfl
theorem unknown13 : Statement .unknown13 := rfl
theorem unknown14 : Statement .unknown14 := rfl
theorem unknown15 : Statement .unknown15 := rfl

end Sys2Proof.Laws.OpcodeNumber
end

