-- ==== Sys2Proof/Tests/Slice0.lean ====
section
/-! SUPPORT. Tests. Expected results are those of spec/95_test_vectors.md (the row is named in each comment) or of
spec/opcode_table.json; the witnesses show that the hypotheses of the statements can be met. -/

namespace Sys2Proof.Tests

open Sys2Proof.Machine

/-- The start state of the vectors: the reset state with these registers. -/
def start (a b c d : Word) : State := { State.reset with regs := { a := a, b := b, c := c, d := d } }

/-- One step of the word placed at `IP` ends in a next state with this property. -/
def after (w : Word) (s : State) (p : State → Bool) : Bool :=
  match step (s.place w) with
  | .next t    => p t
  | .fault _   => false
  | .refused _ => false

/-- The vectors' memory of 64 cells. -/
def smallMemory (s : State) : State := { s with cfg := { s.cfg with memSize := 64 } }

/-- A state with these stack cells live. -/
def withStack (s : State) (cells : Memory) (sp : Word) : State := { s with stack := cells, sp := sp }

/-! The sizes: an ill-formed configuration for each check of `Config.wf`. -/

theorem test_wf_vectors : Config.vectors.wf := by decide
theorem test_wf_largest : Config.wf ⟨5000, 65536, 65536⟩ := by decide
theorem test_wf_no_memory : ¬ Config.wf ⟨0, 4, 16⟩ := by decide
theorem test_wf_no_stack : ¬ Config.wf ⟨1, 0, 16⟩ := by decide
theorem test_wf_stack_too_large : ¬ Config.wf ⟨1, 65537, 16⟩ := by decide
theorem test_wf_no_program : ¬ Config.wf ⟨1, 4, 0⟩ := by decide
theorem test_wf_program_too_large : ¬ Config.wf ⟨1, 4, 65537⟩ := by decide
theorem test_memory_wf_refuses_disorder : ¬ Memory.wf [(5, 1), (3, 1)] := by decide
theorem test_memory_wf_refuses_unlisted_value : ¬ Memory.wf [(5, 0)] := by decide

/-! Decoding: words written out bit by bit, `high8` (or `high10`), `rs`, `rd`, `opcode` (R47, R51). -/

theorem test_decode_cal : decode 0b0000000100_00_0000 = .cal 4 := by decide
theorem test_decode_ret : decode 0b000000000000_0001 = .ret := by decide
theorem test_decode_mov : decode 0b00000000_01_00_0010 = .mov .a .b := by decide
theorem test_decode_ldv : decode 0b0000000010_00_0011 = .ldv .a 2 := by decide
theorem test_decode_ldr : decode 0b0001100100_00_0100 = .ldr .a 100 := by decide
theorem test_decode_ldm : decode 0b0001100100_11_0101 = .ldm .d 100 := by decide
theorem test_decode_athAdd : decode 0b00000_1_00_01_00_0110 = .athAdd .a .b .rd := by decide
theorem test_decode_athSub : decode 0b00000_0_01_00_01_0110 = .athSub .b .a .rs := by decide
theorem test_decode_athMul : decode 0b00000_1_10_01_00_0110 = .athMul .a .b .rd := by decide
theorem test_decode_athDiv : decode 0b00000_0_11_00_01_0110 = .athDiv .b .a .rs := by decide
theorem test_decode_sft : decode 0b00000001_00_11_0111 = .sft .a .right 1 := by decide
theorem test_decode_psh : decode 0b11111111_00_11_1000 = .psh .a := by decide
theorem test_decode_pop : decode 0b00000000_00_01_1001 = .pop .b := by decide
theorem test_decode_jlt : decode 0b1111111111_01_1010 = .jlt .b 1023 := by decide
theorem test_decode_out : decode 0b11001000_11_00_1011 = .out .d 200 := by decide
theorem test_decode_hlt : decode 0b111111111111_1100 = .hlt := by decide
theorem test_decode_unknown13 : decode 0b000000000000_1101 = .unknown13 := by decide
theorem test_decode_unknown14 : decode 0b101010101010_1110 = .unknown14 := by decide
theorem test_decode_unknown15 : decode 0b111111111111_1111 = .unknown15 := by decide

/-- D5 and D6: the field splits of `0xFFDA` and `0x0446`. -/
theorem test_split :
    split 0xFFDA = { opcode := 10, rd := 1, rs := 3, high8 := 0xFF, high10 := 1023 } ∧
    split 0x0446 = { opcode := 6, rd := 0, rs := 1, high8 := 4, high10 := 17 } := by decide

/-- The assembly of L3-P1 and L3-P4. -/
theorem test_encode :
    encode (.ldv .b 3) = 0x00D3 ∧ encode (.athAdd .a .b .rd) = 0x0446 ∧ encode (.out .a 0) = 0x000B ∧
    encode (.sft .a .left 2) = 0x0207 ∧ encode (.athDiv .b .a .rs) = 0x0316 ∧ encode .hlt = 0x000C := by decide

/-- The table's words through the host's entry: bits above `nbits` are no part of an instruction. -/
theorem test_decodeTableWord :
    decodeTableWord 16 0x0306 = some (.athDiv .a .a .rs) ∧ decodeTableWord 16 0x10000 = none ∧
    decodeTableWord 32 0x0306 = none := by decide

/-! One step of each instruction (Part 2 of the vectors). -/

/-- A2: `ADD` wraps. -/
theorem test_add_wraps : after 0x0446 (start 0xFFFF 1 0 0) (fun t => t.regs = ⟨0, 1, 0, 0⟩ ∧ t.ip = 1) = true := by decide
/-- A20: mode 0 writes `rs`, bits 15:11 are ignored. -/
theorem test_add_mode_rs : after 0xF846 (start 5 3 0 0) (fun t => t.regs = ⟨5, 8, 0, 0⟩) = true := by decide
/-- A6: a negative difference wraps. -/
theorem test_sub_wraps : after 0x0116 (start 0 1 0 0) (fun t => t.regs = ⟨0xFFFF, 1, 0, 0⟩) = true := by decide
/-- A7: the same difference into `rd`. -/
theorem test_sub_mode_rd : after 0x0516 (start 7 2 0 0) (fun t => t.regs = ⟨7, 5, 0, 0⟩) = true := by decide
/-- A10: the product `0x10000` wraps. -/
theorem test_mul_wraps : after 0x0646 (start 0x100 0x100 0 0) (fun t => t.regs = ⟨0, 0x100, 0, 0⟩) = true := by decide
/-- A11. -/
theorem test_mul_largest : after 0x0646 (start 0xFFFF 0xFFFF 0 0) (fun t => t.regs.a = 1) = true := by decide
/-- A14: the floor. -/
theorem test_div_floor : after 0x0316 (start 29 7 0 0) (fun t => t.regs = ⟨4, 7, 0, 0⟩ ∧ t.status = 0) = true := by decide
/-- A16: division by zero writes nothing; `IP` is advanced (E6). -/
theorem test_div_by_zero :
    after 0x0316 (start 5 0 0 0) (fun t => t.regs = ⟨5, 0, 0, 0⟩ ∧ t.status = 0x0010 ∧ t.ip = 1) = true := by decide
/-- S9: a left shift by 33 gives 0, not 2. -/
theorem test_sft_left_33 : after 0x2107 (start 1 0 0 0) (fun t => t.regs.a = 0) = true := by decide
/-- S6: any nonzero `rd` field shifts right. -/
theorem test_sft_right_rd3 : after 0x0137 (start 0x00F0 0 0 0) (fun t => t.regs.a = 0x0078) = true := by decide
/-- K5: ignored fields. -/
theorem test_psh_ignores :
    after 0xFF38 (start 1 2 3 4) (fun t => t.sp = 1 ∧ t.readStack 0 = 1 ∧ t.regs = ⟨1, 2, 3, 4⟩) = true := by decide
/-- K2: the fourth push on a stack of 4 overflows. -/
theorem test_psh_overflow :
    after 0x0008 (withStack (start 7 0 0 0) [(0, 1), (1, 2), (2, 3)] 3)
      (fun t => t.status = 0x0002 ∧ t.sp = 3 ∧ t.stack = [(0, 1), (1, 2), (2, 3)]) = true := by decide
/-- K3. -/
theorem test_pop : after 0x0019 (withStack (start 0 0 0 0) [(0, 7)] 1) (fun t => t.regs.b = 7 ∧ t.sp = 0) = true := by decide
/-- K4: a pop of an empty stack. -/
theorem test_pop_underflow :
    after 0x0019 (start 0 5 0 0) (fun t => t.status = 0x0004 ∧ t.regs.b = 5 ∧ t.sp = 0) = true := by decide
/-- C1: `CAL 4` at address 1. -/
theorem test_cal :
    after 0x0100 { start 0 0 0 0 with ip := 1 } (fun t => t.ip = 4 ∧ t.sp = 1 ∧ t.readStack 0 = 2) = true := by decide
/-- C2: `CAL` onto a full stack. -/
theorem test_cal_overflow :
    after 0x0100 (withStack { start 0 0 0 0 with ip := 1 } [(0, 9), (1, 9), (2, 9)] 3)
      (fun t => t.status = 0x0002 ∧ t.ip = 2 ∧ t.sp = 3) = true := by decide
/-- C3: `RET` at address 5. -/
theorem test_ret :
    after 0x0001 (withStack { start 0 0 0 0 with ip := 5 } [(0, 2)] 1) (fun t => t.ip = 2 ∧ t.sp = 0) = true := by decide
/-- C4: `RET` on an empty stack. -/
theorem test_ret_underflow :
    after 0x0001 { start 0 0 0 0 with ip := 5 } (fun t => t.status = 0x0004 ∧ t.ip = 6) = true := by decide
/-- C5: equal values are not taken. -/
theorem test_jlt_equal : after 0x011A { start 10 10 0 0 with ip := 2 } (fun t => t.ip = 3) = true := by decide
/-- C10: the comparison is unsigned. -/
theorem test_jlt_unsigned : after 0x011A { start 1 0xFFFF 0 0 with ip := 2 } (fun t => t.ip = 4) = true := by decide
/-- C12: `HLT` with all other bits 1. -/
theorem test_hlt : after 0xFFFC { start 0 0 0 0 with ip := 4 } (fun t => t.status = 0x0001 ∧ t.ip = 5) = true := by decide
/-- C13: a step after the halt changes nothing. -/
theorem test_step_after_halt :
    after 0x0143 { start 1 2 3 4 with ip := 5, status := 0x0001 }
      (fun t => t.status = 0x0001 ∧ t.ip = 5 ∧ t.regs = ⟨1, 2, 3, 4⟩) = true := by decide
/-- M1. -/
theorem test_mov : after 0x0042 (start 0 3 0 0) (fun t => t.regs = ⟨3, 3, 0, 0⟩) = true := by decide
/-- D4: `IP` wraps at the top of a program of 65536 words. -/
theorem test_mov_ip_wraps :
    after 0x0002 { start 9 0 0 0 with ip := 0xFFFF } (fun t => t.ip = 0 ∧ t.regs.a = 9 ∧ t.cfg.progSize = 65536) = true := by
  decide
/-- M4. -/
theorem test_ldv_largest : after 0xFFF3 (start 0 0 0 0) (fun t => t.regs.d = 1023) = true := by decide
/-- M5: the `rs` position is part of the literal. -/
theorem test_ldv_low_bits : after 0x0083 (start 0 0 0 0) (fun t => t.regs.a = 2) = true := by decide
/-- M10: the last cell of a memory of 64. -/
theorem test_ldr_last_cell :
    after 0x0FC4 { smallMemory (start 0 0 0 0) with mem := [(63, 0xBEEF)] } (fun t => t.regs.a = 0xBEEF) = true := by decide
/-- M8: one past it. -/
theorem test_ldr_out_of_range :
    after 0x1004 (smallMemory (start 1 2 3 4)) (fun t => t.status = 0x0020 ∧ t.regs = ⟨1, 2, 3, 4⟩ ∧ t.ip = 1) = true := by
  decide
/-- M7. -/
theorem test_ldm : after 0x1935 (start 0 0 0 6) (fun t => t.mem = [(100, 6)] ∧ t.regs.d = 6) = true := by decide
/-- M9: a store out of range leaves memory unchanged. -/
theorem test_ldm_out_of_range :
    after 0x1005 (smallMemory (start 1 0 0 0)) (fun t => t.status = 0x0020 ∧ t.mem = []) = true := by decide
/-- O4: a format without a meaning is emitted. -/
theorem test_out_format_200 :
    after 0xC8CB (start 0 0 0 0x41) (fun t => t.out = [⟨200, 0x41⟩] ∧ t.status = 0) = true := by decide
/-- O1, with the text of the event. -/
theorem test_out_text : ({ start 8 0 0 0 with out := [⟨0, 8⟩] } : State).outText = "8" := by
  simp [State.outText, Config.render, String.join]
/-- D1. -/
theorem test_unknown13 : after 0x000D (start 0 0 0 0) (fun t => t.status = 0x0008 ∧ t.ip = 1) = true := by decide
/-- R59, opcode 14. -/
theorem test_unknown14 : after 0xABCE (start 0 0 0 0) (fun t => t.status = 0x0008 ∧ t.ip = 1) = true := by decide
/-- D2. -/
theorem test_unknown15 : after 0xFFFF (start 0 0 0 0) (fun t => t.status = 0x0008 ∧ t.ip = 1) = true := by decide

/-- D3: a fetch at `IP = PROG_SIZE`. -/
def runOff : State := { start 0 0 0 0 with ip := 5, cfg := { Config.vectors with progSize := 5 } }
theorem test_fetch_out_of_range : step runOff = .next { runOff with status := 0x0040 } := rfl

/-! Witnesses: states and operands that meet the hypotheses of the statements, clause by clause. -/

/-- A stack of 4 with one cell of room left, and one with none. -/
def room : State := withStack (start 7 0 0 0) [(0, 1), (1, 2)] 2
def full : State := withStack (start 7 0 0 0) [(0, 1), (1, 2), (2, 3)] 3

theorem witness_LdrLoadsCellOrFaults :
    (63 : BitVec 10).toNat < (smallMemory (start 0 0 0 0)).cfg.memSize ∧
    (smallMemory (start 0 0 0 0)).cfg.memSize ≤ (64 : BitVec 10).toNat := by decide
theorem witness_LdmStoresRegisterOrFaults :
    (0 : BitVec 10).toNat < (smallMemory (start 0 0 0 0)).cfg.memSize ∧
    Memory.wf { smallMemory (start 0 0 0 0) with mem := [(0, 5)] }.mem ∧
    (smallMemory (start 0 0 0 0)).cfg.memSize ≤ (1023 : BitVec 10).toNat := by decide
theorem witness_AthDivWritesQuotientOrFaults :
    ((start 5 1 0 0).readReg .b).toNat ≠ 0 ∧ ((start 5 1 0 0).readReg .c).toNat = 0 := by decide
theorem witness_AthOnOneRegister :
    ((start 0xFFFF 0 0 0).readReg .a).toNat ≠ 0 ∧ ((start 0xFFFF 0 0 0).readReg .b).toNat = 0 := by decide
theorem witness_SftByWidthOrMoreGivesZero : 16 ≤ (16 : BitVec 8).toNat ∧ 16 ≤ (255 : BitVec 8).toNat := by decide
theorem witness_SftLeftShiftsAdd : 16 ≤ (15 : BitVec 8).toNat + (1 : BitVec 8).toNat := by decide
theorem witness_PshPushesOrOverflows :
    room.sp.toNat < room.cfg.stackSize - 1 ∧ room.stack.wf ∧ full.sp.toNat = full.cfg.stackSize - 1 := by decide
theorem witness_PopPopsOrUnderflows :
    (0 < full.sp.toNat ∧ full.sp.toNat ≤ full.cfg.stackSize) ∧
    (0 < (withStack full full.stack 4).sp.toNat ∧ (withStack full full.stack 4).sp.toNat ≤ full.cfg.stackSize) ∧
    (start 0 0 0 0).sp.toNat = 0 := by decide
theorem witness_CalPushesReturnAddressAndJumps :
    room.sp.toNat < room.cfg.stackSize - 1 ∧ room.stack.wf ∧ full.sp.toNat = full.cfg.stackSize - 1 := by decide
theorem witness_RetPopsIntoIp :
    (0 < (withStack room [(0, 2)] 1).sp.toNat ∧ (withStack room [(0, 2)] 1).sp.toNat ≤ room.cfg.stackSize) ∧
    (start 0 0 0 0).sp.toNat = 0 := by decide
theorem witness_JltBranchesOnUnsignedLess :
    ((start 10 11 10 0).readReg .a).toNat < ((start 10 11 10 0).readReg .b).toNat ∧
    ((start 10 11 10 0).readReg .c).toNat ≤ ((start 10 11 10 0).readReg .a).toNat := by decide
theorem witness_HltSetsHalted : room.status = 0 := by decide
theorem witness_UnknownOpcodesRaiseFault :
    ((.unknown13 : Instr) = .unknown13 ∨ (.unknown13 : Instr) = .unknown14 ∨ (.unknown13 : Instr) = .unknown15) ∧
    room.status = 0 := by decide

/-- `MOV A, B` in the last word of a program of 1024. -/
def atEnd : State := { start 0 3 0 0 with ip := 1023, prog := [(1023, 0x0042)] }
theorem witness_StepRunsDecodedInstruction :
    atEnd.running = true ∧ atEnd.ip.toNat < atEnd.cfg.progSize ∧
    decode (atEnd.prog.read atEnd.ip.toNat) = .mov .a .b := by decide
theorem witness_FetchOutsideProgramFaults : runOff.status = 0 ∧ runOff.cfg.progSize ≤ runOff.ip.toNat := by decide
theorem witness_StoppedCoreStaysStopped : { room with status := 0x0040 }.readStatus ≠ 0 := by decide
theorem witness_FaultsArePrecise :
    full.status = 0 ∧ ∃ t, exec (.psh .a) full = .next t ∧ t.faulted = true := ⟨by decide, _, rfl, by decide⟩
theorem witness_EachCauseSetsItsStatusBit : full.status = 0 := by decide
theorem witness_EachInstructionHasOneCause :
    full.status = 0 ∧ ∃ t, exec (.cal 4) full = .next t ∧ t.raised .stackOverflow = true :=
  ⟨by decide, _, rfl, by decide⟩
theorem witness_OnlyHltHalts : room.status = 0 ∧ ∃ t, exec .hlt room = .next t ∧ t.outcome = .halts :=
  ⟨by decide, _, rfl, by decide⟩
theorem witness_OnlyHltHalts_continues :
    room.status = 0 ∧ ∃ t, exec (.mov .b .a) room = .next t ∧ t.outcome = .continues := ⟨by decide, _, rfl, by decide⟩
theorem witness_FaultAddressIsFetchAddress :
    runOff.status = 0 ∧ ∃ t, step runOff = .next t ∧ t.faulted = true := ⟨by decide, _, rfl, by decide⟩
theorem witness_IgnoredBitsDoNotMatter :
    (0xF846 : Word) &&& usedBits (split 0xF846).opcode = 0x0046 &&& usedBits (split 0xF846).opcode := by decide

/-- The word `0xFFFF` at address 0. -/
def illegal : State := { start 1 2 3 4 with prog := [(0, 0xFFFF)] }
theorem witness_UnknownOpcodeWordsFault :
    illegal.status = 0 ∧ illegal.ip.toNat < illegal.cfg.progSize ∧ illegal.prog.read illegal.ip.toNat = 0xFFFF ∧
    13 ≤ (0xFFFF : Word).toNat % 16 := by decide

/-- A loaded machine that meets the invariant, in the middle of a run: `LDM D, 100`. -/
def loaded : State :=
  { start 1 2 3 6 with
    ip := 7, sp := 1, stack := [(0, 2), (3, 9)], mem := [(5, 1)], out := [⟨0, 8⟩], prog := [(0, 0x0143), (7, 0x1935)] }
theorem witness_StepKeepsInvariant : loaded.Inv ∧ ∃ t, step loaded = .next t ∧ t.mem = [(5, 1), (100, 6)] :=
  ⟨by decide, _, rfl, by decide⟩
theorem witness_StepAlwaysCompletes : full.Inv := by decide
theorem witness_ResetMeetsInvariant :
    Config.vectors.wf ∧ Memory.within [(0, 0x0143)] Config.vectors.progSize ∧
    Memory.within [(1023, 7)] Config.vectors.memSize ∧ Memory.within [(3, 1)] Config.vectors.stackSize ∧
    loaded.Inv ∧ Memory.within [(0, 1), (3, 2)] loaded.cfg.stackSize := by decide
theorem witness_DeadStackCellsAreUnobservable :
    SameButDeadCells loaded { loaded with stack := [(0, 2), (1, 5)] } ∧ ∃ t, step loaded = .next t := by
  refine ⟨⟨rfl, by decide, by decide, fun j hj => ?_⟩, _, rfl⟩
  have : j = 0 := by simp [loaded, start] at hj; omega
  subst this
  decide
theorem witness_FirstStepFetchesAtZero : 0 < loaded.cfg.progSize := by decide
theorem witness_StatusBitsAreSticky :
    (∃ t, step { loaded with status := 0x0002 } = .next t) ∧ { loaded with status := 0x0002 }.readStatus ≠ 0 :=
  ⟨⟨_, rfl⟩, by decide⟩

/-- `CAL 4` at address 1, a `RET` and a taken `JLT`. -/
def calling : State := { room with ip := 1, prog := [(1, 0x0100)] }
def returning : State := { room with ip := 1, prog := [(1, 0x0001)] }
def branching : State := { start 1 2 0 0 with ip := 1, prog := [(1, 0x011A)] }
theorem witness_OnlyTransfersWriteIp :
    (calling.running = true ∧ calling.ip.toNat < calling.cfg.progSize ∧ ∃ t, step calling = .next t ∧ t.ip = 4) ∧
    (returning.running = true ∧ returning.ip.toNat < returning.cfg.progSize ∧ ∃ t, step returning = .next t) ∧
    (branching.running = true ∧ branching.ip.toNat < branching.cfg.progSize ∧ ∃ t, step branching = .next t ∧ t.ip = 4) :=
  ⟨⟨by decide, by decide, _, rfl, by decide⟩, ⟨by decide, by decide, _, rfl⟩, by decide, by decide, _, rfl, by decide⟩
theorem witness_OnlyStackInstructionsTouchStack :
    usesStack (.ldm .d 100) = false ∧ ∃ t, exec (.ldm .d 100) loaded = .next t := ⟨by decide, _, rfl⟩
theorem witness_LastStackCellIsNeverWritten :
    room.cfg.stackSize - 1 ≤ 3 ∧ ∃ t, exec (.psh .a) room = .next t := ⟨by decide, _, rfl⟩
theorem witness_OnlyDestinationRegisterChanges :
    destReg (.athSub .b .a .rd) ≠ some .a ∧ ∃ t, exec (.athSub .b .a .rd) room = .next t := ⟨by decide, _, rfl⟩
theorem witness_OnlyLdmStoresToMemory :
    storeAddress (.ldm .d 100) ≠ some 101 ∧ ∃ t, exec (.ldm .d 100) loaded = .next t := ⟨by decide, _, rfl⟩
theorem witness_ProgramStoreIsNeverWritten : ∃ t, step loaded = .next t := ⟨_, rfl⟩
theorem witness_OutputIsAppendOnly : ∃ t, exec (.out .d 200) loaded = .next t := ⟨_, rfl⟩
theorem witness_CallThenReturnRestoresIp :
    room.cfg.wf ∧ room.stack.wf ∧ room.sp.toNat < room.cfg.stackSize - 1 ∧
    ∃ s1, exec (.cal 4) room = .next s1 ∧ { s1 with ip := 9 }.sp = s1.sp ∧ { s1 with ip := 9 }.cfg = s1.cfg ∧
      { s1 with ip := 9 }.readStack (s1.sp.toNat - 1) = s1.readStack (s1.sp.toNat - 1) :=
  ⟨by decide, by decide, by decide, _, rfl, rfl, rfl, rfl⟩
theorem witness_PushThenPopReturnsValue :
    room.cfg.wf ∧ room.stack.wf ∧ room.sp.toNat < room.cfg.stackSize - 1 := by decide
theorem witness_PushesFillStackThenOverflow :
    (start 1 0 0 0).cfg.wf ∧ (start 1 0 0 0).status = 0 ∧ (start 1 0 0 0).sp = 0 ∧
    3 ≤ (start 1 0 0 0).cfg.stackSize - 1 := by decide
theorem witness_LargeMemoryNeverFaults : 1024 ≤ room.cfg.memSize := by decide

/-- A program store of 2 words; the top stack entry is 2, and `A < B`. -/
def shortProgram : State :=
  { withStack (start 1 2 0 0) [(0, 1), (1, 2)] 2 with cfg := { Config.vectors with progSize := 2 } }
theorem witness_TransferOutsideProgramFaultsAtFetch :
    shortProgram.status = 0 ∧ shortProgram.cfg.progSize ≤ (2 : BitVec 10).toNat ∧
    shortProgram.sp.toNat < shortProgram.cfg.stackSize - 1 ∧
    0 < shortProgram.sp.toNat ∧ shortProgram.sp.toNat ≤ shortProgram.cfg.stackSize ∧
    shortProgram.cfg.progSize ≤ (shortProgram.readStack (shortProgram.sp.toNat - 1)).toNat ∧
    (shortProgram.readReg .a).toNat < (shortProgram.readReg .b).toNat := by decide

theorem witness_RegisterWritesWrap : Reg.b ≠ Reg.a := by decide
theorem witness_MemoryReadsWhatWasWritten : (6 : Nat) ≠ 5 ∧ loaded.mem.wf := by decide

/-- `OUT A, dec` at address 0. -/
def printing : State := { start 8 0 0 0 with prog := [(0, 0x000B)] }
theorem witness_OutputPortsCarryTheEvent :
    (∃ t, step printing = .next t) ∧ printing.ports.outValid = true ∧
    (∃ t, step loaded = .next t) ∧ loaded.ports.outValid = false := ⟨⟨_, rfl⟩, by decide, ⟨_, rfl⟩, by decide⟩
theorem witness_MemoryPortsCarryTheStore :
    loaded.status = 0 ∧ (∃ t, step loaded = .next t ∧ t.faulted = false) ∧ loaded.ports.memWe = true ∧ loaded.mem.wf ∧
    printing.status = 0 ∧ (∃ t, step printing = .next t) ∧ printing.ports.memWe = false :=
  ⟨by decide, ⟨_, rfl, by decide⟩, by decide, by decide, by decide, ⟨_, rfl⟩, by decide⟩
theorem witness_DecimalEightPrintsEight : loaded.out = [{ fmt := 0, value := 8 }] := by decide

end Sys2Proof.Tests
end

/-! The state's registers (10_state.md): what a register write does, and who writes `IP`. -/

namespace Sys2Proof

/-- `wrap` as a number in the integers: the residue, never negative (R9). -/
theorem wrap_toNat_intCast (v : Int) : ((wrap v).toNat : Int) = v % 2 ^ 16 := by
  rw [wrap_toNat, Int.toNat_of_nonneg (Int.emod_nonneg v (by decide))]

end Sys2Proof

namespace Sys2Proof.Machine

@[simp] theorem latch_ip (s : State) (c : Cause) : (s.latch c).ip = s.ip := rfl

@[simp] theorem halt_ip (s : State) : s.halt.ip = s.ip := rfl

/-- A write of a target to `IP` puts the 10-bit number there, zero-extended (R49). -/
theorem writeIp_zextW_ip_toNat (s : State) (a : BitVec 10) : (s.writeIp (zextW a).toNat).ip.toNat = a.toNat := by
  rw [writeIp_ip, wrap_word, zextW_toNat]

/-- A step of a running core inside its program is the execute of the word at `IP`, with `IP` advanced (R63). -/
theorem step_eq_exec {s : State} (hr : s.running = true) (hi : s.ip.toNat < s.cfg.progSize) :
    step s = exec (decode (s.prog.read s.ip.toNat)) s.advance := by
  simp [step, issue_runs hr hi]

/-- Every way an execute can leave `IP`: as it was, or as one of the three transfers writes it (R18). -/
def IpWritten (s : State) (i : Instr) (t : State) : Prop :=
  t.ip = s.ip ∨
  (∃ a, i = .cal a ∧ t.ip.toNat = a.toNat) ∨
  (i = .ret ∧ t.ip = s.readStack (s.sp.toNat - 1)) ∨
  (∃ rd a, i = .jlt rd a ∧ (s.readReg .a).toNat < (s.readReg rd).toNat ∧ t.ip.toNat = a.toNat)

/-- Each kind of effect leaves `IP` in one of those ways: only a call, a return and a taken branch write it. -/
theorem Effect.ipWritten {s t : State} {i : Instr} (h : Effect s i t) : IpWritten s i t := by
  cases h with
  | calls a => exact .inr (.inl ⟨a, rfl, writeIp_zextW_ip_toNat _ a⟩)
  | returns => exact .inr (.inr (.inl ⟨rfl, wrap_word _⟩))
  | jumps rd a hlt => exact .inr (.inr (.inr ⟨rd, a, rfl, hlt, writeIp_zextW_ip_toNat s a⟩))
  | raises _ c => exact .inl (latch_ip s c)
  | halts => exact .inl (halt_ip s)
  | register | stores | pushes | pops | falls | prints => exact .inl rfl

/-- Settles O41, by the effects of the one word the step executes, in the state with `IP` advanced. -/
theorem onlyTransfersWriteIp : Obligations.OnlyTransfersWriteIp := by
  intro s t hr hi h
  rw [step_eq_exec hr hi] at h
  have hw := (exec_effect h).ipWritten
  rwa [IpWritten, advance_ip] at hw

/-- Settles O53, by the laws of the register file and of `wrap`. -/
theorem registerWritesWrap : Obligations.RegisterWritesWrap := by
  intro s r v
  refine ⟨?_, fun q hq => readReg_writeReg_ne hq s v, writeReg_ip s r v, writeReg_sp s r v⟩
  rw [readReg_writeReg_same, wrap_toNat_intCast]

end Sys2Proof.Machine

/-! Arithmetic (40_arithmetic.md): `ATH` puts its wrapped result into the register its mode selects, and nothing else. -/

namespace Sys2Proof.Machine

/-- The destination of `ATH` as the statements write it (R70). -/
theorem athDest_eq_ite (m : Dest) (rd rs : Reg) : athDest m rd rs = if m = .rd then rd else rs := by
  cases m <;> rfl

/-- What every `ATH` that completes does, for any exact result in the integers (R69, R70, R71). -/
theorem athWrite_writes_int (rd rs : Reg) (m : Dest) (v : Int) (s : State) :
    ∃ t, athWrite rd rs m v s = .next t ∧
      t = { s with regs := t.regs } ∧
      ((t.readReg (if m = .rd then rd else rs)).toNat : Int) = v % 2 ^ 16 ∧
      ∀ r, r ≠ (if m = .rd then rd else rs) → t.readReg r = s.readReg r := by
  rw [← athDest_eq_ite]
  refine ⟨s.writeReg (athDest m rd rs) v, rfl, rfl, ?_, fun r hr => readReg_writeReg_ne hr s v⟩
  rw [readReg_writeReg_same, wrap_toNat_intCast]

/-- The same for a result that is a natural number: the register holds its low 16 bits. -/
theorem athWrite_writes_nat (rd rs : Reg) (m : Dest) (n : Nat) (s : State) :
    ∃ t, athWrite rd rs m n s = .next t ∧
      t = { s with regs := t.regs } ∧
      (t.readReg (if m = .rd then rd else rs)).toNat = n % 2 ^ 16 ∧
      ∀ r, r ≠ (if m = .rd then rd else rs) → t.readReg r = s.readReg r := by
  obtain ⟨t, hnext, hframe, hdest, hother⟩ := athWrite_writes_int rd rs m n s
  exact ⟨t, hnext, hframe, mod_cast hdest, hother⟩

/-- ADD writes the sum, which is a natural number (R72). -/
theorem exec_athAdd_eq (rd rs : Reg) (m : Dest) (s : State) :
    exec (.athAdd rd rs m) s = athWrite rd rs m ((s.readReg rd).toNat + (s.readReg rs).toNat : Nat) s := rfl

/-- SUB writes `x[rs] - x[rd]`, which may be negative (R73). -/
theorem exec_athSub_eq (rd rs : Reg) (m : Dest) (s : State) :
    exec (.athSub rd rs m) s = athWrite rd rs m ((s.readReg rs).toNat - (s.readReg rd).toNat) s := rfl

/-- MUL writes the product, which is a natural number (R74). -/
theorem exec_athMul_eq (rd rs : Reg) (m : Dest) (s : State) :
    exec (.athMul rd rs m) s = athWrite rd rs m ((s.readReg rs).toNat * (s.readReg rd).toNat : Nat) s := rfl

/-- Settles O5, by the one rule for `ATH` at the sum. -/
theorem athAddWritesSum : Obligations.AthAddWritesSum := by
  intro rd rs m s
  rw [exec_athAdd_eq]
  exact athWrite_writes_nat rd rs m _ s

/-- Settles O6, by the one rule for `ATH` at the difference in the integers. -/
theorem athSubWritesReversedDifference : Obligations.AthSubWritesReversedDifference := by
  intro rd rs m s
  rw [exec_athSub_eq]
  exact athWrite_writes_int rd rs m _ s

/-- Settles O7, by the one rule for `ATH` at the product. -/
theorem athMulWritesLowProduct : Obligations.AthMulWritesLowProduct := by
  intro rd rs m s
  rw [exec_athMul_eq]
  exact athWrite_writes_nat rd rs m _ s

end Sys2Proof.Machine

/-! Control flow (42_control_flow.md): `JLT` is a write of `IP` or no change at all, by the unsigned order. -/

namespace Sys2Proof.Machine

/-- A branch taken: `IP` is written with the target (R92). -/
theorem exec_jlt_of_lt {rd : Reg} {s : State} (h : (s.readReg .a).toNat < (s.readReg rd).toNat) (a : BitVec 10) :
    exec (.jlt rd a) s = .next (s.writeIp (zextW a).toNat) := if_pos h

/-- A branch not taken, equal values included: the state stays as it is (R92). -/
theorem exec_jlt_of_le {rd : Reg} {s : State} (h : (s.readReg rd).toNat ≤ (s.readReg .a).toNat) (a : BitVec 10) :
    exec (.jlt rd a) s = .next s := if_neg h.not_gt

/-- Settles O17, by the two outcomes of the unsigned comparison. -/
theorem jltBranchesOnUnsignedLess : Obligations.JltBranchesOnUnsignedLess := by
  intro rd a s
  rcases Nat.lt_or_ge (s.readReg .a).toNat (s.readReg rd).toNat with hlt | hle
  · exact ⟨_, exec_jlt_of_lt hlt a, rfl, fun _ => writeIp_zextW_ip_toNat s a, fun hle => absurd hlt hle.not_gt⟩
  · exact ⟨s, exec_jlt_of_le hle a, rfl, fun hlt => absurd hlt hle.not_gt, fun _ => rfl⟩

end Sys2Proof.Machine

/-! Data movement (43_data_movement.md): `MOV` and `LDV` write one word to one register, and nothing else. -/

namespace Sys2Proof.Machine

/-- A word written to a register reads back whole: the wrap of R14 loses nothing of it. -/
theorem readReg_writeReg_word (s : State) (r : Reg) (w : Word) : (s.writeReg r w.toNat).readReg r = w := by
  rw [readReg_writeReg_same, wrap_word]

/-- MOV writes `x[rs]`, in every state (R96). -/
theorem exec_mov_eq (rd rs : Reg) (s : State) :
    exec (.mov rd rs) s = .next (s.writeReg rd (s.readReg rs).toNat) := rfl

/-- LDV writes the zero-extended literal, in every state (R97). -/
theorem exec_ldv_eq (rd : Reg) (v : BitVec 10) (s : State) :
    exec (.ldv rd v) s = .next (s.writeReg rd (zextW v).toNat) := rfl

/-- Settles O1, by the laws of a register write at the word `x[rs]`. -/
theorem movCopiesSourceRegister : Obligations.MovCopiesSourceRegister := by
  intro rd rs s
  exact ⟨_, exec_mov_eq rd rs s, rfl, readReg_writeReg_word s rd _, fun r hr => readReg_writeReg_ne hr s _⟩

/-- Settles O2, by the laws of a register write at the literal, whose zero-extension is the same number. -/
theorem ldvLoadsLiteral : Obligations.LdvLoadsLiteral := by
  intro rd v s
  refine ⟨_, exec_ldv_eq rd v s, rfl, ?_, fun r hr => readReg_writeReg_ne hr s _⟩
  rw [readReg_writeReg_word, zextW_toNat]

end Sys2Proof.Machine

/-! Output (44_output.md): `OUT` emits one event, whatever the format, and nothing else. -/

namespace Sys2Proof.Machine

/-- OUT emits the event `(high8, x[rs])`, in every state and for every format (R102). -/
theorem exec_out_eq (rs : Reg) (f : BitVec 8) (s : State) :
    exec (.out rs f) s = .next (s.emit f (s.readReg rs)) := rfl

/-- Settles O19, by the laws of `emit`: it writes the output channel only, and appends there. -/
theorem outAppendsEvent : Obligations.OutAppendsEvent := by
  intro rs f s
  exact ⟨_, exec_out_eq rs f s, rfl, emit_out ..⟩

end Sys2Proof.Machine

/-! Decoding undoes encoding (30_encoding.md R60, R67): a format's fields are read back, and each operand from its field. -/

namespace Sys2Proof

@[simp] theorem split_encR_rd {opc : Nat} (ho : opc < 16) (rd rs : BitVec 2) (h8 : BitVec 8) :
    (split (encR opc rd rs h8)).rd = rd := (split_encR ho rd rs h8).2.1

@[simp] theorem split_encR_rs {opc : Nat} (ho : opc < 16) (rd rs : BitVec 2) (h8 : BitVec 8) :
    (split (encR opc rd rs h8)).rs = rs := (split_encR ho rd rs h8).2.2.1

@[simp] theorem split_encR_high8 {opc : Nat} (ho : opc < 16) (rd rs : BitVec 2) (h8 : BitVec 8) :
    (split (encR opc rd rs h8)).high8 = h8 := (split_encR ho rd rs h8).2.2.2

@[simp] theorem split_encI_rd {opc : Nat} (ho : opc < 16) (rd : BitVec 2) (h10 : BitVec 10) :
    (split (encI opc rd h10)).rd = rd := (split_encI ho rd h10).2.1

@[simp] theorem split_encI_high10 {opc : Nat} (ho : opc < 16) (rd : BitVec 2) (h10 : BitVec 10) :
    (split (encI opc rd h10)).high10 = h10 := (split_encI ho rd h10).2.2

/-- A format R word of a known opcode decodes by its fields. -/
theorem decode_encR {opc : Nat} {op : Op} (ho : opc < 16) (h : resolve (BitVec.ofNat 4 opc) = some op)
    (rd rs : BitVec 2) (h8 : BitVec 8) :
    decode (encR opc rd rs h8) = decodeOp op (split (encR opc rd rs h8)) :=
  decode_of_resolve (by rw [Laws.OpcodeNumber.of_encR ho, h])

/-- A format I word of a known opcode decodes by its fields. -/
theorem decode_encI {opc : Nat} {op : Op} (ho : opc < 16) (h : resolve (BitVec.ofNat 4 opc) = some op)
    (rd : BitVec 2) (h10 : BitVec 10) :
    decode (encI opc rd h10) = decodeOp op (split (encI opc rd h10)) :=
  decode_of_resolve (by rw [Laws.OpcodeNumber.of_encI ho, h])

/-- `high8` of an `ATH` word keeps the sub-operation in bits 1:0 (R54, R67). -/
theorem aluop_of_high8 (m : Dest) {k : Nat} (hk : k < 4) :
    ((BitVec.ofNat 8 (m.bit * 4 + k)).extractLsb' 0 2).toNat = k := by
  cases m <;> simp [Dest.bit, BitVec.extractLsb'_toNat] <;> omega

/-- `high8` of an `ATH` word keeps the destination mode in bit 2 (R54, R67). -/
theorem mode_of_high8 (m : Dest) {k : Nat} (hk : k < 4) :
    Dest.ofBit ((BitVec.ofNat 8 (m.bit * 4 + k)).getLsbD 2) = m := by
  revert k
  cases m <;> decide

/-- An `ATH` word decodes by its sub-operation, with the operands and the mode it was made of. -/
theorem decode_encAth (k : Fin 4) (rd rs : Reg) (m : Dest) :
    decode (encAth k rd rs m) =
      ![Instr.athAdd rd rs m, .athSub rd rs m, .athMul rd rs m, .athDiv rd rs m] k := by
  rw [encAth, decode_encR (op := .ath) (by decide) rfl]
  simp only [decodeOp, decodeAth, split_encR_rd, split_encR_rs, split_encR_high8, Reg.ofIndex_index,
    mode_of_high8 m k.isLt, aluop_of_high8 m k.isLt, Nat.reduceLT]
  match k with
  | 0 | 1 | 2 | 3 => rfl

/-- Settles O29, by the format of each instruction: its operands are its fields. -/
theorem decodeEncodeAgree : Obligations.DecodeEncodeAgree := by
  intro i
  cases i with
  | cal t => simp [encode, decode_encI (op := .cal), resolve, decodeOp]
  | mov rd rs => simp [encode, decode_encR (op := .mov), resolve, decodeOp]
  | ldv rd v => simp [encode, decode_encI (op := .ldv), resolve, decodeOp]
  | ldr rd a => simp [encode, decode_encI (op := .ldr), resolve, decodeOp]
  | ldm rd a => simp [encode, decode_encI (op := .ldm), resolve, decodeOp]
  | athAdd rd rs m => exact decode_encAth 0 rd rs m
  | athSub rd rs m => exact decode_encAth 1 rd rs m
  | athMul rd rs m => exact decode_encAth 2 rd rs m
  | athDiv rd rs m => exact decode_encAth 3 rd rs m
  | sft rs d n => simp [encode, decode_encR (op := .sft), resolve, decodeOp]
  | psh rs => simp [encode, decode_encR (op := .psh), resolve, decodeOp]
  | pop rd => simp [encode, decode_encR (op := .pop), resolve, decodeOp]
  | jlt rd t => simp [encode, decode_encI (op := .jlt), resolve, decodeOp]
  | out rs f => simp [encode, decode_encR (op := .out), resolve, decodeOp]
  | ret | hlt | unknown13 | unknown14 | unknown15 => rfl

end Sys2Proof

/-! What a word's instruction depends on (30_encoding.md R47, R52, R53, R59). -/

namespace Sys2Proof

/-- The bits an operation uses (R52). -/
def Op.usedBits : Op → Word
  | .cal | .out => 0xFFCF
  | .mov => 0x00FF
  | .ldv | .ldr | .ldm | .sft | .jlt => 0xFFFF
  | .ath => 0x07FF
  | .psh => 0x00CF
  | .pop => 0x003F
  | .ret | .hlt => 0x000F

theorem usedBits_of_resolve {o : BitVec 4} {op : Op} (h : resolve o = some op) : usedBits o = op.usedBits := by
  revert h
  cases op <;> revert o <;> decide

/-- The opcode is used, whatever it is. -/
theorem usedBits_opcode (o : BitVec 4) : (usedBits o).extractLsb' 0 4 = BitVec.allOnes 4 := by
  revert o
  decide

/-- Words that agree under a mask agree on a field the mask covers. -/
theorem extractLsb'_eq_of_and_eq {w v m : Word} {i n : Nat} (h : w &&& m = v &&& m)
    (hm : m.extractLsb' i n = BitVec.allOnes n) : w.extractLsb' i n = v.extractLsb' i n := by
  simpa [BitVec.extractLsb'_and, hm] using congrArg (·.extractLsb' i n) h

/-- The sub-operation and the mode of `ATH` stand in bits 2:0 of `high8` (R54). -/
theorem decodeAth_congr {f g : Fields} (hrd : f.rd = g.rd) (hrs : f.rs = g.rs)
    (h : f.high8.extractLsb' 0 3 = g.high8.extractLsb' 0 3) : decodeAth f = decodeAth g := by
  have hop : f.high8.extractLsb' 0 2 = g.high8.extractLsb' 0 2 := by
    simpa [BitVec.extractLsb'_extractLsb'_of_le] using congrArg (·.extractLsb' 0 2) h
  have hmode : f.high8.getLsbD 2 = g.high8.getLsbD 2 := by
    simpa using congrArg (·.getLsbD 2) h
  simp only [decodeAth, hrd, hrs, hop, hmode]

theorem split_high8_low3 (w : Word) : (split w).high8.extractLsb' 0 3 = w.extractLsb' 8 3 := by
  ext i hi
  simp [split]
  omega

/-- An operation takes its operands from the bits it uses (R52). -/
theorem decodeOp_congr (op : Op) {w v : Word} (h : w &&& op.usedBits = v &&& op.usedBits) :
    decodeOp op (split w) = decodeOp op (split v) := by
  have field (i n : Nat) := extractLsb'_eq_of_and_eq (i := i) (n := n) h
  cases op with
  | cal => simp only [decodeOp, split, field 6 10 rfl]
  | mov => simp only [decodeOp, split, field 4 2 rfl, field 6 2 rfl]
  | ldv | ldr | ldm | jlt => simp only [decodeOp, split, field 4 2 rfl, field 6 10 rfl]
  | ath =>
    refine decodeAth_congr (field 4 2 rfl) (field 6 2 rfl) ?_
    rw [split_high8_low3, split_high8_low3, field 8 3 rfl]
  | sft => simp only [decodeOp, split, field 4 2 rfl, field 6 2 rfl, field 8 8 rfl]
  | psh => simp only [decodeOp, split, field 6 2 rfl]
  | pop => simp only [decodeOp, split, field 4 2 rfl]
  | out => simp only [decodeOp, split, field 6 2 rfl, field 8 8 rfl]
  | ret | hlt => rfl

/-- Settles O30, by the resolver's answer: the operands of a known operation, or the opcode of an unknown one. -/
theorem ignoredBitsDoNotMatter : Obligations.IgnoredBitsDoNotMatter := by
  intro w v h
  have hopc : (split w).opcode = (split v).opcode := extractLsb'_eq_of_and_eq h (usedBits_opcode _)
  cases hw : resolve (split w).opcode with
  | none => rw [decode_of_unknown hw, decode_of_unknown (hopc ▸ hw), hopc]
  | some op =>
    rw [usedBits_of_resolve hw] at h
    rw [decode_of_resolve hw, decode_of_resolve (hopc ▸ hw), decodeOp_congr op h]

/-- Settles O31, by the laws of the splitter; `high8` and `rs` are quotient and residue of `high10`. -/
theorem fieldsStandAtTheirBits : Obligations.FieldsStandAtTheirBits := by
  intro w
  refine ⟨split_opcode_toNat w, split_rd_toNat w, split_rs_toNat w, split_high8_toNat w, split_high10_toNat w, ?_, ?_⟩
  · rw [split_high8_toNat, split_high10_toNat, Nat.div_div_eq_div_mul]
  · rw [split_rs_toNat, split_high10_toNat]

/-- Settles O33, by evaluation of the decoder on each word. -/
theorem sampleWordsDecode : Obligations.SampleWordsDecode := by
  unfold Obligations.SampleWordsDecode
  decide

end Sys2Proof

/-! `STATUS` (10_state.md R22, R23; 60_exceptions.md R108 to R112): what a fault and a halt leave in it, and what the host reads
off it. -/

namespace Sys2Proof.Machine

/-- A bit that exists is set by `setStatusBit`, whatever `STATUS` was. -/
theorem readStatus_setStatusBit_and {bit : Word} (h : bit &&& statusMask = bit) (s : State) :
    (s.setStatusBit bit).readStatus &&& bit = bit := by
  have habsorb (x : Word) : (x ||| bit) &&& bit = bit := by
    ext i
    simp
    grind
  rw [State.readStatus, setStatusBit_status, BitVec.and_assoc, BitVec.and_assoc, BitVec.and_comm statusMask bit, h,
    BitVec.and_comm statusMask bit, h, habsorb]

/-- A fault taken in a running core, as data: its cause's bit is the one thing written (R109). -/
theorem latch_of_zero {s : State} (h : s.status = 0) (c : Cause) : s.latch c = { s with status := c.bit } := by
  rw [← latch_status_of_zero h c]
  rfl

/-- Latching is a fault as R109 says, in any state. -/
theorem faultsWith_of_latch {answer : Result} {s : State} {c : Cause} (h : answer = .next (s.latch c)) :
    FaultsWith answer s c := ⟨_, h, rfl, raised_latch s c⟩

section ReadOff

variable {t : State} {c : Cause}

theorem raised_eq_of_status (h : t.status = c.bit) (d : Cause) : t.raised d = decide (c = d) := by
  simp only [State.raised, State.readStatus, h]
  cases c <;> cases d <;> decide

theorem cause_of_status (h : t.status = c.bit) : t.cause = some c := by
  simp only [State.cause, funext (raised_eq_of_status h)]
  cases c <;> decide

theorem faulted_of_status (h : t.status = c.bit) : t.faulted = true := by
  simp only [State.faulted, State.readStatus, h]
  cases c <;> decide

theorem not_raised_of_zero (h : t.status = 0) : t.raised c = false := by
  simp [State.raised, readStatus_of_zero h]

theorem not_faulted_of_zero (h : t.status = 0) : t.faulted = false := by
  simp [State.faulted, readStatus_of_zero h]

theorem not_raised_of_halted (h : t.status = haltedBit) : t.raised c = false := by
  simp only [State.raised, State.readStatus, h]
  cases c <;> decide

theorem not_faulted_of_halted (h : t.status = haltedBit) : t.faulted = false := by
  simp only [State.faulted, State.readStatus, h]
  decide

theorem outcome_of_status (h : t.status = c.bit) : t.outcome = .faults c := by
  simp only [State.outcome, cause_of_status h]

theorem outcome_of_zero (h : t.status = 0) : t.outcome = .continues := by
  have hc : t.cause = none := by simp [State.cause, not_raised_of_zero h]
  simp [State.outcome, hc, State.halted, readStatus_of_zero h]

theorem outcome_of_halted (h : t.status = haltedBit) : t.outcome = .halts := by
  have hc : t.cause = none := by simp [State.cause, not_raised_of_halted h]
  have hh : t.halted = true := by simp [State.halted, State.readStatus, h, haltedBit, statusMask]
  simp [State.outcome, hc, hh]

end ReadOff

/-- What an execute does with `STATUS`: nothing, a fault of the instruction's one cause, or the halt. -/
theorem Effect.status_cases {s t : State} {i : Instr} (h : Effect s i t) :
    (i ≠ .hlt ∧ t.status = s.status) ∨ (∃ c, faultOf i = some c ∧ t = s.latch c) ∨ (i = .hlt ∧ t = s.halt) := by
  cases h with
  | raises _ c hc => exact .inr (.inl ⟨c, hc, rfl⟩)
  | halts => exact .inr (.inr ⟨rfl, rfl⟩)
  | register _ r v hr => exact .inl ⟨(by rintro rfl; cases hr), rfl⟩
  | stores | pushes | calls | pops | returns | jumps | falls | prints => exact .inl ⟨nofun, rfl⟩

/-- The same in a running core, where `STATUS` so tells which it was. -/
theorem Effect.status_of_zero {s t : State} {i : Instr} (h : Effect s i t) (hs : s.status = 0) :
    (i ≠ .hlt ∧ t.status = 0) ∨
    (∃ c, faultOf i = some c ∧ t = s.latch c ∧ t.status = c.bit) ∨
    (i = .hlt ∧ t.status = haltedBit) := by
  rcases h.status_cases with ⟨hi, ht⟩ | ⟨c, hc, rfl⟩ | ⟨hi, rfl⟩
  · exact .inl ⟨hi, ht.trans hs⟩
  · exact .inr (.inl ⟨c, hc, rfl, latch_status_of_zero hs c⟩)
  · exact .inr (.inr ⟨hi, halt_status_of_zero hs⟩)

theorem Cause.bit_toNat (c : Cause) : c.bit.toNat = 2 ^ c.code := by cases c <;> rfl

/-- Settles O24: of the three ways an execute can leave `STATUS`, only a latched cause reads as a fault. -/
theorem faultsArePrecise : Obligations.FaultsArePrecise := by
  intro i s t hs h hf
  rcases (exec_effect h).status_of_zero hs with ⟨-, ht⟩ | ⟨c, -, rfl, ht⟩ | ⟨-, ht⟩
  · simp [not_faulted_of_zero ht] at hf
  · exact ⟨rfl, c, by rw [ht, Cause.bit_toNat]⟩
  · simp [not_faulted_of_halted ht] at hf

/-- Settles O26: a latched cause reads as that cause alone, and it is the one of the table. -/
theorem eachInstructionHasOneCause : Obligations.EachInstructionHasOneCause := by
  intro i s t c hs h hc
  rcases (exec_effect h).status_of_zero hs with ⟨-, ht⟩ | ⟨d, hd, -, ht⟩ | ⟨-, ht⟩
  · simp [not_raised_of_zero ht] at hc
  · obtain rfl : d = c := by simpa [raised_eq_of_status ht] using hc
    exact ⟨hd, cause_of_status ht⟩
  · simp [not_raised_of_halted ht] at hc

/-- Settles O27, by the outcome in each of the three ways an execute can leave `STATUS`. -/
theorem onlyHltHalts : Obligations.OnlyHltHalts := by
  intro i s t hs h
  rcases (exec_effect h).status_of_zero hs with ⟨hi, ht⟩ | ⟨c, hc, -, ht⟩ | ⟨hi, ht⟩
  · simp [outcome_of_zero ht, not_faulted_of_zero ht, hi, ht]
  · have hi : i ≠ .hlt := by rintro rfl; cases hc
    simp [outcome_of_status ht, faulted_of_status ht, hi]
  · simp [outcome_of_halted ht, not_faulted_of_halted ht, hi]

/-- No instruction's cause is the fetch's (R108). -/
theorem faultOf_ne_fetchOutOfRange (i : Instr) : faultOf i ≠ some .fetchOutOfRange := by
  cases i <;> simp [faultOf]

theorem faultAddress_of_fetch {t : State} (h : t.status = Cause.bit .fetchOutOfRange) : t.faultAddress = t.ip := by
  simp [State.faultAddress, raised_eq_of_status h]

theorem faultAddress_of_ne {t : State} {c : Cause} (h : t.status = c.bit) (hc : c ≠ .fetchOutOfRange) :
    t.faultAddress = t.ip - 1 := by
  simp [State.faultAddress, raised_eq_of_status h, hc]

/-- Settles O28: a fetch fault leaves `IP`, and any other fault leaves it one past the fetch. -/
theorem faultAddressIsFetchAddress : Obligations.FaultAddressIsFetchAddress := by
  intro s t hs h hf
  rcases step_cases s with ⟨hr, -⟩ | ⟨-, -, hstep⟩ | ⟨-, -, hstep⟩
  · simp [running_of_zero hs] at hr
  · cases hstep.symm.trans h
    rw [faultAddress_of_fetch (latch_status_of_zero hs _), latch_ip]
  · rcases (exec_effect (hstep ▸ h)).status_of_zero (s := s.advance) hs with ⟨-, ht⟩ | ⟨c, hc, rfl, ht⟩ | ⟨-, ht⟩
    · simp [not_faulted_of_zero ht] at hf
    · have hne : c ≠ .fetchOutOfRange := by rintro rfl; exact faultOf_ne_fetchOutOfRange _ hc
      rw [faultAddress_of_ne ht hne, latch_ip, advance_ip, BitVec.add_sub_cancel]
    · simp [not_faulted_of_halted ht] at hf

/-- Settles O40: a stopped core keeps its state, and a running one has no bit set. -/
theorem statusBitsAreSticky : Obligations.StatusBitsAreSticky := by
  intro s t h
  cases hr : s.running with
  | false =>
    rw [step, issue_stopped hr] at h
    cases h
    simp
  | true => simp [(running_iff s).mp hr]

/-- A step of a stopped core (R110). -/
theorem step_of_stopped {s : State} (h : s.readStatus ≠ 0) : step s = .next s := by
  have hr : s.running = false := by simpa [State.running] using h
  simp [step, issue_stopped hr]

/-- A run of one step more, where the first answers a next state. -/
theorem core_run_succ {s t : State} (h : step s = .next t) (n : Nat) :
    Sys2Proof.core.run (n + 1) s = Sys2Proof.core.run n t := by
  simp [Host.Core.run, core, h]

/-- Settles O23, by induction on the number of steps. -/
theorem stoppedCoreStaysStopped : Obligations.StoppedCoreStaysStopped := by
  intro s n h
  induction n with
  | zero => rfl
  | succ n ih =>
    rw [core_run_succ (step_of_stopped h), ih]

/-- Settles O25, by the bit of each cause. -/
theorem eachCauseSetsItsStatusBit : Obligations.EachCauseSetsItsStatusBit := by
  intro c s h
  rw [raiseFault, latch_of_zero h]
  cases c <;> rfl

/-- Settles O22: outside the program the step ends in the latched fetch fault. -/
theorem fetchOutsideProgramFaults : Obligations.FetchOutsideProgramFaults := by
  intro s hs hi
  simp only [step, issue_outside (running_of_zero hs) hi, latch_of_zero hs]
  rfl

/-- The run loop's advance, as data (R17). -/
theorem advance_eq (s : State) : s.advance = { s with ip := s.ip + 1 } := by
  rw [← advance_ip]
  rfl

/-- Settles O21, by the step's third case. -/
theorem stepRunsDecodedInstruction : Obligations.StepRunsDecodedInstruction := by
  rintro s i hr hi rfl
  rw [step_eq_exec hr hi, advance_eq]

/-- Settles O18: the halt sets its bit, and a core whose `STATUS` is not 0 is stopped. -/
theorem hltSetsHalted : Obligations.HltSetsHalted := by
  intro s
  have hbit : s.halt.readStatus &&& haltedBit = haltedBit := readStatus_setStatusBit_and rfl s
  refine ⟨s.halt, rfl, rfl, ?_, fun h => halt_status_of_zero h, step_of_stopped fun h => ?_⟩
  · rw [State.halted, hbit]
    rfl
  · rw [h] at hbit
    exact absurd hbit (by decide)

end Sys2Proof.Machine

/-! The illegal opcodes (30_encoding.md R59): the words that have them, and what they do. -/

namespace Sys2Proof.Machine

/-- The illegal instructions are those whose one cause is UnknownOpcode (R108). -/
theorem faultOf_eq_unknownOpcode_iff (i : Instr) :
    faultOf i = some .unknownOpcode ↔ i = .unknown13 ∨ i = .unknown14 ∨ i = .unknown15 := by
  cases i <;> simp [faultOf]

theorem faultOf_decodeOp_ne (op : Op) (f : Fields) : faultOf (decodeOp op f) ≠ some .unknownOpcode := by
  cases op with
  | ath =>
    rw [decodeOp, decodeAth]
    split <;> simp [faultOf]
  | _ => simp [decodeOp, faultOf]

theorem faultOf_decodeUnknown (o : BitVec 4) : faultOf (decodeUnknown o) = some .unknownOpcode := by
  rw [decodeUnknown]
  split <;> rfl

/-- A word's one cause is UnknownOpcode exactly where the resolver does not know its opcode. -/
theorem faultOf_decode_iff (w : Word) : faultOf (decode w) = some .unknownOpcode ↔ 13 ≤ w.toNat % 16 := by
  rw [← split_opcode_toNat, ← resolve_eq_none_iff]
  cases h : resolve (split w).opcode with
  | none => simp [decode_of_unknown h, faultOf_decodeUnknown]
  | some op => simp [decode_of_resolve h, faultOf_decodeOp_ne]

/-- The execute of an illegal instruction is the fault (R59). -/
theorem exec_of_unknownOpcode {i : Instr} (h : faultOf i = some .unknownOpcode) (s : State) :
    exec i s = .next (s.latch .unknownOpcode) := by
  rcases (faultOf_eq_unknownOpcode_iff i).mp h with rfl | rfl | rfl <;> rfl

/-- Settles O20, by the one rule for the illegal opcodes. -/
theorem unknownOpcodesRaiseFault : Obligations.UnknownOpcodesRaiseFault := by
  intro i s hi
  refine ⟨_, exec_of_unknownOpcode ((faultOf_eq_unknownOpcode_iff i).mpr hi) s, rfl, raised_latch s _, fun h => ?_⟩
  rw [latch_status_of_zero h]
  rfl

/-- Settles O32, by the words the resolver does not know and the one rule for the illegal opcodes. -/
theorem unknownOpcodeWordsFault : Obligations.UnknownOpcodeWordsFault := by
  intro w
  refine ⟨by rw [← faultOf_decode_iff, faultOf_eq_unknownOpcode_iff], ?_⟩
  rintro s hs hi rfl hw
  have hadv : s.advance.status = 0 := hs
  rw [step_eq_exec (running_of_zero hs) hi, exec_of_unknownOpcode ((faultOf_decode_iff _).mpr hw),
    latch_of_zero hadv, advance_eq]
  rfl

end Sys2Proof.Machine

/-! Frames: what each kind of effect leaves unchanged (R15, R25, R43, R86, R87, R105). -/

namespace Sys2Proof.Machine

/-- Settles O42: only the effects of the four stack instructions write `SP` or the stack. -/
theorem onlyStackInstructionsTouchStack : Obligations.OnlyStackInstructionsTouchStack := by
  intro i s t h hs
  cases exec_effect h with
  | pushes | calls | pops | returns => cases hs
  | raises | register | stores | jumps | falls | prints | halts => exact ⟨rfl, fun _ => rfl⟩

/-- A push with room writes below the last slot (R87, C1). -/
theorem readStack_push {s : State} {j : Nat} (h : s.sp.toNat < s.cfg.stackSize - 1) (hj : s.cfg.stackSize - 1 ≤ j)
    (v : Int) : (s.writeStack s.sp.toNat v).readStack j = s.readStack j :=
  Memory.read_write_ne (by omega) _ _

/-- Settles O43: a push or a call has written the cell at `SP`, which is below; nothing else writes the stack. -/
theorem lastStackCellIsNeverWritten : Obligations.LastStackCellIsNeverWritten := by
  intro i s t j h hj
  cases exec_effect h with
  | pushes _ hs | calls _ hs => exact readStack_push hs hj _
  | raises | register | stores | pops | returns | jumps | falls | prints | halts => rfl

/-- Settles O44: an effect that writes a register writes the one of the table. -/
theorem onlyDestinationRegisterChanges : Obligations.OnlyDestinationRegisterChanges := by
  intro i s t r h hr
  cases exec_effect h with
  | register _ q v hq => exact readReg_writeReg_ne (by rintro rfl; exact hr hq) s v
  | pops rd => exact readReg_writeReg_ne (by rintro rfl; exact hr rfl) _ _
  | raises | stores | pushes | calls | returns | jumps | falls | prints | halts => rfl

/-- Settles O45: the one effect that writes memory is a store, at its effective address. -/
theorem onlyLdmStoresToMemory : Obligations.OnlyLdmStoresToMemory := by
  intro i s t b h hb
  cases exec_effect h with
  | stores rd a =>
    have hba : b ≠ a.toNat := by rintro rfl; simp [storeAddress] at hb
    exact Memory.read_write_ne hba _ _
  | raises | register | pushes | calls | pops | returns | jumps | falls | prints | halts => rfl

/-- No effect writes the program store or the sizes (R25, R43). -/
theorem Effect.prog_cfg {s t : State} {i : Instr} (h : Effect s i t) : t.prog = s.prog ∧ t.cfg = s.cfg := by
  cases h <;> exact ⟨rfl, rfl⟩

/-- Settles O46: neither the fetch, nor the advance, nor any effect writes the program store or the sizes. -/
theorem programStoreIsNeverWritten : Obligations.ProgramStoreIsNeverWritten := by
  intro s t h
  rcases step_cases s with ⟨-, hstep⟩ | ⟨-, -, hstep⟩ | ⟨-, -, hstep⟩
  · cases hstep.symm.trans h
    exact ⟨rfl, rfl⟩
  · cases hstep.symm.trans h
    exact ⟨rfl, rfl⟩
  · exact (exec_effect (hstep ▸ h)).prog_cfg (s := s.advance)

/-- Only `OUT` emits (R105). -/
theorem emits_eq_nil {i : Instr} (h : ∀ rs f, i ≠ .out rs f) (s : State) : emits i s = [] := by
  cases i with
  | out rs f => exact absurd rfl (h rs f)
  | _ => rfl

/-- Settles O47: only the effect of `OUT` writes the channel. -/
theorem outputIsAppendOnly : Obligations.OutputIsAppendOnly := by
  intro i s t h
  cases exec_effect h with
  | prints => rfl
  | raises _ c hc =>
    rw [emits_eq_nil (by rintro _ _ rfl; cases hc)]
    exact (List.append_nil _).symm
  | register _ r v hr =>
    rw [emits_eq_nil (by rintro _ _ rfl; cases hr)]
    exact (List.append_nil _).symm
  | stores | pushes | calls | pops | returns | jumps | falls | halts => exact (List.append_nil _).symm

end Sys2Proof.Machine

/-! The invariant (10_state.md R19, R20, R22 to R25): every step keeps it, and under it every step answers a next state. -/

namespace Sys2Proof.Machine

/-- A write inside an array keeps the array within its size. -/
theorem Memory.within_write {m : Memory} {n a : Nat} (h : m.within n) (ha : a < n) (v : Word) :
    (m.write a v).within n := by
  obtain ⟨hwf, hlt⟩ := h
  refine ⟨Memory.wf_write hwf a v, fun p hp => ?_⟩
  rcases Memory.mem_write hp with hpa | hpm
  · exact hpa ▸ ha
  · exact hlt p hpm

theorem bit_mem_legalStatus (c : Cause) : c.bit ∈ legalStatus := by cases c <;> decide

/-- A legal `STATUS` of a running core is 0: no reserved bit is set in it. -/
theorem status_eq_zero_of_running {s : State} (h : s.status ∈ legalStatus) (hr : s.running = true) : s.status = 0 := by
  have hlegal : legalStatus.all (fun w => w &&& statusMask = 0 → w = 0) = true := by decide
  exact of_decide_eq_true (List.all_eq_true.mp hlegal _ h) ((running_iff s).mp hr)

/-- The number `SP` holds after a push with room: `STACK_SIZE` is at most `2^W` (R7), so nothing wraps. -/
theorem sp_succ_toNat {s : State} (hcfg : s.cfg.wf) (h : s.sp.toNat < s.cfg.stackSize - 1) :
    (s.sp + 1).toNat = s.sp.toNat + 1 := by
  obtain ⟨-, ⟨-, hsize⟩, -⟩ := hcfg
  rw [BitVec.toNat_add, show (1 : Word).toNat = 1 from rfl]
  omega

/-- The number `SP` holds after a pop of a live entry. -/
theorem sp_pred_toNat {s : State} (h : 0 < s.sp.toNat) : (s.sp - 1).toNat = s.sp.toNat - 1 :=
  BitVec.toNat_sub_of_le (BitVec.le_def.mpr h)

section Kept

variable {s t : State} {i : Instr}

/-- `SP` stays at most `STACK_SIZE - 1`: a push has room, and a pop has a live entry (R19). -/
theorem Effect.sp_le (h : Effect s i t) (hcfg : s.cfg.wf) (hsp : s.sp.toNat ≤ s.cfg.stackSize - 1) :
    t.sp.toNat ≤ s.cfg.stackSize - 1 := by
  cases h with
  | pushes _ hs | calls _ hs =>
    simp only [writeIp_sp, writeSp_sp, wrap_succ, sp_succ_toNat hcfg hs]
    omega
  | pops _ h0 | returns h0 =>
    simp only [writeReg_sp, writeIp_sp, writeSp_sp, wrap_pred, sp_pred_toNat h0]
    omega
  | raises | register | stores | jumps | falls | prints | halts => exact hsp

/-- `STATUS` stays legal from 0: it is 0 again, one cause's bit, or HALTED alone (R23). -/
theorem Effect.status_legal (h : Effect s i t) (hs : s.status = 0) : t.status ∈ legalStatus := by
  rcases h.status_of_zero hs with ⟨-, ht⟩ | ⟨c, -, -, ht⟩ | ⟨-, ht⟩
  · rw [ht]
    decide
  · rw [ht]
    exact bit_mem_legalStatus c
  · rw [ht]
    decide

/-- Memory stays within `MEM_SIZE`: the address unit has checked a store (R36). -/
theorem Effect.mem_within (h : Effect s i t) (hm : s.mem.within s.cfg.memSize) : t.mem.within s.cfg.memSize := by
  cases h with
  | stores rd a ha => exact Memory.within_write hm ha _
  | raises | register | pushes | calls | pops | returns | jumps | falls | prints | halts => exact hm

/-- The stack stays within `STACK_SIZE`: a push has room (R81). -/
theorem Effect.stack_within (h : Effect s i t) (hst : s.stack.within s.cfg.stackSize) :
    t.stack.within s.cfg.stackSize := by
  cases h with
  | pushes _ hs | calls _ hs => exact Memory.within_write hst (by omega) _
  | raises | register | stores | pops | returns | jumps | falls | prints | halts => exact hst

/-- An execute in a running core keeps the invariant. -/
theorem Effect.inv (h : Effect s i t) (hinv : s.Inv) (hs : s.status = 0) : t.Inv := by
  obtain ⟨hcfg, hsp, -, hmem, hstack, hprog⟩ := hinv
  obtain ⟨hp, hc⟩ := h.prog_cfg
  rw [State.Inv, hc, hp]
  exact ⟨hcfg, h.sp_le hcfg hsp, h.status_legal hs, h.mem_within hmem, h.stack_within hstack, hprog⟩

/-- A fault taken in a running core keeps the invariant. -/
theorem inv_latch (hinv : s.Inv) (hs : s.status = 0) (c : Cause) : (s.latch c).Inv := by
  obtain ⟨hcfg, hsp, -, hmem, hstack, hprog⟩ := hinv
  exact ⟨hcfg, hsp, latch_status_of_zero hs c ▸ bit_mem_legalStatus c, hmem, hstack, hprog⟩

end Kept

/-- Settles O34, by the three cases of a step: no change, a fetch fault, or one effect. -/
theorem stepKeepsInvariant : Obligations.StepKeepsInvariant := by
  intro s t hinv h
  have ⟨_, _, hlegal, _⟩ := hinv
  have hzero (hr : s.running = true) : s.status = 0 := status_eq_zero_of_running hlegal hr
  rcases step_cases s with ⟨-, hstep⟩ | ⟨hr, -, hstep⟩ | ⟨hr, -, hstep⟩
  · cases hstep.symm.trans h
    exact hinv
  · cases hstep.symm.trans h
    exact inv_latch hinv (hzero hr) _
  · exact (exec_effect (hstep ▸ h)).inv (s := s.advance) hinv (hzero hr)

/-- A push completes where `SP` is within R19, if the rest of its rule does. -/
theorem push_completes {s : State} (hsp : s.sp.toNat ≤ s.cfg.stackSize - 1) (v : Int) {rest : State → Result}
    (hrest : ∀ u, ∃ t, rest u = .next t) : ∃ t, push v s rest = .next t := by
  rcases Nat.lt_or_eq_of_le hsp with hroom | hfull
  · rw [push_room hroom]
    exact hrest _
  · exact ⟨_, push_full hfull v rest⟩

/-- A pop completes where `SP` is within R19, if the rest of its rule does. -/
theorem pop_completes {s : State} (hsp : s.sp.toNat ≤ s.cfg.stackSize - 1) {rest : Word → State → Result}
    (hrest : ∀ v u, ∃ t, rest v u = .next t) : ∃ t, pop s rest = .next t := by
  rcases Nat.eq_zero_or_pos s.sp.toNat with hempty | hlive
  · exact ⟨_, pop_empty hempty rest⟩
  · rw [pop_live hlive (by omega)]
    exact hrest _ _

/-- The address unit completes, if the rest of its rule does. -/
theorem withAddress_completes (a : BitVec 10) (s : State) {rest : Nat → Result} (hrest : ∀ n, ∃ t, rest n = .next t) :
    ∃ t, withAddress a s rest = .next t := by
  rcases Nat.lt_or_ge a.toNat s.cfg.memSize with ha | ha
  · rw [withAddress_inside ha]
    exact hrest _
  · exact ⟨_, withAddress_outside ha rest⟩

/-- Every execute completes where `SP` is within R19: only the stack controller could stop. -/
theorem exec_completes {s : State} (hsp : s.sp.toNat ≤ s.cfg.stackSize - 1) (i : Instr) :
    ∃ t, exec i s = .next t := by
  cases i with
  | cal => exact push_completes hsp s.ip.toNat fun _ => ⟨_, rfl⟩
  | psh rs => exact push_completes hsp (s.readReg rs).toNat fun _ => ⟨_, rfl⟩
  | ret | pop => exact pop_completes hsp fun _ _ => ⟨_, rfl⟩
  | ldr _ a | ldm _ a => exact withAddress_completes a s fun _ => ⟨_, rfl⟩
  | athDiv =>
    rw [exec, execAthDiv]
    split <;> exact ⟨_, rfl⟩
  | jlt =>
    rw [exec, execJlt]
    split <;> exact ⟨_, rfl⟩
  | mov | ldv | athAdd | athSub | athMul | sft | out | hlt | unknown13 | unknown14 | unknown15 => exact ⟨_, rfl⟩

/-- Settles O35, by the three cases of a step. -/
theorem stepAlwaysCompletes : Obligations.StepAlwaysCompletes := by
  rintro s ⟨-, hsp, -⟩
  rcases step_cases s with ⟨-, hstep⟩ | ⟨-, -, hstep⟩ | ⟨-, -, hstep⟩
  · exact ⟨_, hstep⟩
  · exact ⟨_, hstep⟩
  · rw [hstep]
    exact exec_completes (s := s.advance) hsp _

/-- A launch within R7's ranges meets the invariant. -/
theorem inv_launch {cfg : Config} {prog mem stack : Memory} (hcfg : cfg.wf) (hprog : prog.within cfg.progSize)
    (hmem : mem.within cfg.memSize) (hstack : stack.within cfg.stackSize) :
    (State.launch cfg prog mem stack).Inv :=
  ⟨hcfg, Nat.zero_le _, List.mem_cons_self .., hmem, hstack, hprog⟩

/-- Settles O36: reset and the reset transaction are launches. -/
theorem resetMeetsInvariant : Obligations.ResetMeetsInvariant := by
  refine ⟨by decide, fun _ _ _ _ => inv_launch, ?_⟩
  rintro s cells ⟨hcfg, -, -, hmem, -, hprog⟩ hcells
  exact inv_launch hcfg hprog hmem hcells

end Sys2Proof.Machine

/-! Division and shifts (40_arithmetic.md R75 to R79). -/

namespace Sys2Proof.Machine

/-- DIV by zero is the fault (R75). -/
theorem exec_athDiv_of_zero {rd : Reg} {s : State} (h : (s.readReg rd).toNat = 0) (rs : Reg) (m : Dest) :
    exec (.athDiv rd rs m) s = .next (s.latch .divisionByZero) := if_pos h

/-- DIV by a value that is not 0 writes the quotient (R75). -/
theorem exec_athDiv_of_ne {rd : Reg} {s : State} (h : (s.readReg rd).toNat ≠ 0) (rs : Reg) (m : Dest) :
    exec (.athDiv rd rs m) s = athWrite rd rs m ((s.readReg rs).toNat / (s.readReg rd).toNat : Nat) s := if_neg h

/-- Settles O8, by the one rule for `ATH` at the quotient, which is no larger than its dividend. -/
theorem athDivWritesQuotientOrFaults : Obligations.AthDivWritesQuotientOrFaults := by
  intro rd rs m s
  refine ⟨fun hne => ?_, fun hzero => faultsWith_of_latch (exec_athDiv_of_zero hzero rs m)⟩
  have hlt : (s.readReg rs).toNat / (s.readReg rd).toNat < 2 ^ 16 := (Nat.div_le_self _ _).trans_lt (BitVec.isLt _)
  obtain ⟨t, ht, hframe, hquot, hother⟩ := athWrite_writes_nat rd rs m _ s
  exact ⟨t, exec_athDiv_of_ne hne rs m ▸ ht, hframe, hquot.trans (Nat.mod_eq_of_lt hlt), hother⟩

/-- Settles O9, by the four operations at `rd = rs`, where both modes name the one register. -/
theorem athOnOneRegister : Obligations.AthOnOneRegister := by
  intro r m s
  obtain ⟨t, hadd, -, hsum, -⟩ := athAddWritesSum r r m s
  obtain ⟨u, hsub, -, hdiff, -⟩ := athSubWritesReversedDifference r r m s
  obtain ⟨v, hmul, -, hprod, -⟩ := athMulWritesLowProduct r r m s
  obtain ⟨hdiv, hfault⟩ := athDivWritesQuotientOrFaults r r m s
  rw [ite_self] at hsum hdiff hprod
  refine ⟨⟨t, hadd, by rw [hsum, two_mul]⟩, ⟨u, hsub, by omega⟩, ⟨v, hmul, by rw [hprod, sq]⟩, fun hne => ?_, hfault⟩
  obtain ⟨w, hw, -, hquot, -⟩ := hdiv hne
  rw [ite_self, Nat.div_self (Nat.pos_of_ne_zero hne)] at hquot
  exact ⟨w, hw, hquot⟩

/-- A shift writes its exact result to `x[rs]`, and nothing else (R77). -/
theorem exec_sft_writes (rs : Reg) (d : Dir) (n : BitVec 8) (s : State) :
    ∃ t, exec (.sft rs d n) s = .next t ∧
      t = { s with regs := t.regs } ∧
      (t.readReg rs).toNat = shifted d (s.readReg rs).toNat n.toNat % 2 ^ 16 ∧
      ∀ r, r ≠ rs → t.readReg r = s.readReg r := by
  refine ⟨_, rfl, rfl, ?_, fun r hr => readReg_writeReg_ne hr s _⟩
  rw [readReg_writeReg_same, wrap_natCast, BitVec.toNat_ofNat]

/-- A right shift loses nothing to the wrap. -/
theorem shifted_right_mod (v : Word) (n : Nat) : shifted .right v.toNat n % 2 ^ 16 = v.toNat / 2 ^ n :=
  Nat.mod_eq_of_lt ((Nat.div_le_self _ _).trans_lt v.isLt)

/-- A shift by `W` or more leaves nothing, in either direction (R78). -/
theorem shifted_mod_of_width_le (d : Dir) (v : Word) {n : Nat} (h : 16 ≤ n) : shifted d v.toNat n % 2 ^ 16 = 0 := by
  have hpow : 2 ^ 16 ∣ 2 ^ n := Nat.pow_dvd_pow 2 h
  cases d with
  | left => exact Nat.mod_eq_zero_of_dvd (hpow.mul_left _)
  | right =>
    rw [shifted_right_mod]
    exact Nat.div_eq_of_lt (v.isLt.trans_le (Nat.le_of_dvd (by positivity) hpow))

/-- Settles O10, by the one rule for shifts in each direction. -/
theorem sftShiftsInPlace : Obligations.SftShiftsInPlace := by
  intro rs n s
  refine ⟨exec_sft_writes rs .left n s, ?_⟩
  rw [← shifted_right_mod]
  exact exec_sft_writes rs .right n s

/-- Settles O11, by the one rule for shifts. -/
theorem sftByWidthOrMoreGivesZero : Obligations.SftByWidthOrMoreGivesZero := by
  intro rs d n s hn
  obtain ⟨t, ht, -, hv, -⟩ := exec_sft_writes rs d n s
  exact ⟨t, ht, BitVec.eq_of_toNat_eq (hv.trans (shifted_mod_of_width_le d _ hn))⟩

/-- Settles O12: the wrap between the two shifts loses only what the second would shift out. -/
theorem sftLeftShiftsAdd : Obligations.SftLeftShiftsAdd := by
  intro rs a b s
  obtain ⟨t, ht, -, htv, -⟩ := exec_sft_writes rs .left a s
  obtain ⟨u, hu, -, huv, -⟩ := exec_sft_writes rs .left b t
  have hv : (u.readReg rs).toNat = (s.readReg rs).toNat * 2 ^ (a.toNat + b.toNat) % 2 ^ 16 := by
    rw [huv, htv, shifted, shifted, Nat.mod_mul_mod, mul_assoc, ← pow_add]
  exact ⟨t, u, ht, hu, hv, fun h => BitVec.eq_of_toNat_eq (hv.trans (shifted_mod_of_width_le .left _ h))⟩

end Sys2Proof.Machine

/-! Loads and stores (20_memory.md R35 to R37, 43_data_movement.md R98, R99). -/

namespace Sys2Proof.Machine

/-- LDR is the address unit, then a register write of the cell (R98). -/
theorem exec_ldr_eq (rd : Reg) (a : BitVec 10) (s : State) :
    exec (.ldr rd a) s = withAddress a s fun ea => .next (s.writeReg rd (s.readMem ea).toNat) := rfl

/-- LDM is the address unit, then a memory write of the register (R99). -/
theorem exec_ldm_eq (rd : Reg) (a : BitVec 10) (s : State) :
    exec (.ldm rd a) s = withAddress a s fun ea => .next (s.writeMem ea (s.readReg rd).toNat) := rfl

theorem exec_ldr_inside {a : BitVec 10} {s : State} (h : a.toNat < s.cfg.memSize) (rd : Reg) :
    exec (.ldr rd a) s = .next (s.writeReg rd (s.readMem a.toNat).toNat) := by
  rw [exec_ldr_eq, withAddress_inside h]

theorem exec_ldr_outside {a : BitVec 10} {s : State} (h : s.cfg.memSize ≤ a.toNat) (rd : Reg) :
    exec (.ldr rd a) s = .next (s.latch .memoryOutOfRange) := by
  rw [exec_ldr_eq, withAddress_outside h]

theorem exec_ldm_inside {a : BitVec 10} {s : State} (h : a.toNat < s.cfg.memSize) (rd : Reg) :
    exec (.ldm rd a) s = .next (s.writeMem a.toNat (s.readReg rd).toNat) := by
  rw [exec_ldm_eq, withAddress_inside h]

theorem exec_ldm_outside {a : BitVec 10} {s : State} (h : s.cfg.memSize ≤ a.toNat) (rd : Reg) :
    exec (.ldm rd a) s = .next (s.latch .memoryOutOfRange) := by
  rw [exec_ldm_eq, withAddress_outside h]

/-- A memory write changes no other cell (R35). -/
theorem readMem_writeMem_ne {a b : Nat} (h : b ≠ a) (s : State) (v : Int) : (s.writeMem a v).readMem b = s.readMem b :=
  Memory.read_write_ne h _ _

/-- A cell reads as it was written, wrapped, where memory keeps its canonical form (R35). -/
theorem readMem_writeMem_same {s : State} (h : s.mem.wf) (a : Nat) (v : Int) : (s.writeMem a v).readMem a = wrap v :=
  Memory.read_write_same h _ _

/-- Settles O54, by the laws of a memory write. -/
theorem memoryReadsWhatWasWritten : Obligations.MemoryReadsWhatWasWritten := by
  intro s a v
  exact ⟨fun b hb => readMem_writeMem_ne hb s v, fun h => ⟨readMem_writeMem_same h a v, Memory.wf_write h _ _⟩⟩

/-- Settles O3, by the address unit inside and outside the memory. -/
theorem ldrLoadsCellOrFaults : Obligations.LdrLoadsCellOrFaults := by
  intro rd a s
  refine ⟨fun hin => ?_, fun hout => faultsWith_of_latch (exec_ldr_outside hout rd)⟩
  exact ⟨_, exec_ldr_inside hin rd, rfl, readReg_writeReg_word s rd _, fun r hr => readReg_writeReg_ne hr s _⟩

/-- Settles O4, by the address unit inside and outside the memory. -/
theorem ldmStoresRegisterOrFaults : Obligations.LdmStoresRegisterOrFaults := by
  intro rd a s
  refine ⟨fun hin => ?_, fun hout => faultsWith_of_latch (exec_ldm_outside hout rd)⟩
  rw [zextW_toNat]
  refine ⟨_, exec_ldm_inside hin rd, rfl, fun hwf => ?_, fun b hb => readMem_writeMem_ne hb s _⟩
  rw [readMem_writeMem_same hwf, wrap_word]

/-- Settles O51: a 10-bit address is below 1024, so the address unit passes it. -/
theorem largeMemoryNeverFaults : Obligations.LargeMemoryNeverFaults := by
  intro rd a s hsize
  have hin : a.toNat < s.cfg.memSize := a.isLt.trans_le hsize
  exact ⟨⟨_, exec_ldr_inside hin rd, rfl⟩, _, exec_ldm_inside hin rd, rfl⟩

end Sys2Proof.Machine

/-! The ports of a step (30_encoding.md R65): what they carry is what the executed word emits and stores. -/

namespace Sys2Proof.Machine

/-- The output ports and the events of the word a step executes. -/
theorem ports_out {s u : State} {w : Word} (h : issue s = .runs w u) :
    (s.ports.outValid = false → emits (decode w) s = []) ∧
    (s.ports.outValid = true → ∃ f v, s.ports.outFmt = some f ∧ s.ports.outData = some v ∧
      emits (decode w) s = [{ fmt := f, value := v }]) := by
  simp only [State.ports, h]
  cases decode w <;> simp [emits, State.idlePorts]

/-- The memory ports and the store of the word a step executes. -/
theorem ports_mem {s u : State} {w : Word} (h : issue s = .runs w u) :
    (s.ports.memWe = false → storeAddress (decode w) = none) ∧
    (s.ports.memWe = true → ∃ rd a, decode w = .ldm rd a ∧ s.ports.memAddr = some a ∧
      s.ports.memWdata = some (s.readReg rd)) := by
  simp only [State.ports, h]
  cases decode w <;> simp [storeAddress, State.idlePorts]

/-- A step that executes no word drives no output and no store. -/
theorem ports_of_ends {s u : State} (h : issue s = .ends u) : s.ports = s.idlePorts := by
  simp only [State.ports, h]

/-- A step in its two forms: no word is executed and only `STATUS` may change, or the issued word is executed with `IP`
advanced. -/
theorem step_ends_or_runs {s t : State} (h : step s = .next t) :
    (s.ports = s.idlePorts ∧ t = { s with status := t.status }) ∨
    (∃ w, issue s = .runs w s.advance ∧ exec (decode w) s.advance = .next t) := by
  rcases step_cases s with ⟨hr, hstep⟩ | ⟨hr, hi, hstep⟩ | ⟨hr, hi, hstep⟩
  · cases hstep.symm.trans h
    exact .inl ⟨ports_of_ends (issue_stopped hr), rfl⟩
  · cases hstep.symm.trans h
    exact .inl ⟨ports_of_ends (issue_outside hr hi), rfl⟩
  · exact .inr ⟨_, issue_runs hr hi, hstep ▸ h⟩

/-- Settles O55, by the events of the executed word. -/
theorem outputPortsCarryTheEvent : Obligations.OutputPortsCarryTheEvent := by
  intro s t h
  rcases step_ends_or_runs h with ⟨hports, ht⟩ | ⟨w, hissue, hexec⟩
  · rw [hports, ht]
    exact ⟨fun _ => rfl, nofun⟩
  · have hout : t.out = s.out ++ emits (decode w) s := outputIsAppendOnly _ s.advance _ hexec
    obtain ⟨hnone, hsome⟩ := ports_out hissue
    refine ⟨fun hv => by rw [hout, hnone hv, List.append_nil], fun hv => ?_⟩
    obtain ⟨f, v, hf, hd, he⟩ := hsome hv
    exact ⟨f, v, hf, hd, by rw [hout, he]⟩

/-- A store that does not fault leaves the register's value in the cell (R99). -/
theorem readMem_of_exec_ldm {s t : State} {rd : Reg} {a : BitVec 10} (hs : s.status = 0) (hwf : s.mem.wf)
    (h : exec (.ldm rd a) s = .next t) (hf : t.faulted = false) : t.readMem a.toNat = s.readReg rd := by
  rcases Nat.lt_or_ge a.toNat s.cfg.memSize with hin | hout
  · cases (exec_ldm_inside hin rd).symm.trans h
    rw [readMem_writeMem_same hwf, wrap_word]
  · cases (exec_ldm_outside hout rd).symm.trans h
    simp [faulted_of_status (latch_status_of_zero hs _)] at hf

/-- Settles O56, by the store of the executed word. -/
theorem memoryPortsCarryTheStore : Obligations.MemoryPortsCarryTheStore := by
  intro s t hs h
  rcases step_ends_or_runs h with ⟨hports, ht⟩ | ⟨w, hissue, hexec⟩
  · rw [hports, ht]
    exact ⟨fun _ _ => rfl, nofun⟩
  · obtain ⟨hnone, hsome⟩ := ports_mem hissue
    refine ⟨fun hv b => onlyLdmStoresToMemory _ s.advance _ b hexec (by rw [hnone hv]; nofun), fun hv => ?_⟩
    obtain ⟨rd, a, hw, haddr, hdata⟩ := hsome hv
    rw [hw] at hexec
    refine ⟨a, _, haddr, hdata, fun b hb => ?_, fun hwf hf => ?_⟩
    · refine onlyLdmStoresToMemory _ s.advance _ b hexec ?_
      simpa [storeAddress] using hb.symm
    · exact readMem_of_exec_ldm (s := s.advance) hs hwf hexec hf

end Sys2Proof.Machine

/-! The stack controller (41_stack.md R81 to R85, 42_control_flow.md R90, R91, R94): `PSH`, `POP`, `CAL` and `RET`. -/

namespace Sys2Proof.Machine

section

variable {s : State}

theorem exec_psh_room (h : s.sp.toNat < s.cfg.stackSize - 1) (rs : Reg) :
    exec (.psh rs) s = .next ((s.writeStack s.sp.toNat (s.readReg rs).toNat).writeSp (s.sp.toNat + 1)) := by
  rw [exec, execPsh, push_room h]

theorem exec_psh_full (h : s.sp.toNat = s.cfg.stackSize - 1) (rs : Reg) :
    exec (.psh rs) s = .next (s.latch .stackOverflow) := by
  rw [exec, execPsh, push_full h]

theorem exec_cal_room (h : s.sp.toNat < s.cfg.stackSize - 1) (a : BitVec 10) :
    exec (.cal a) s =
      .next (((s.writeStack s.sp.toNat s.ip.toNat).writeSp (s.sp.toNat + 1)).writeIp (zextW a).toNat) := by
  rw [exec, execCal, push_room h]

theorem exec_cal_full (h : s.sp.toNat = s.cfg.stackSize - 1) (a : BitVec 10) :
    exec (.cal a) s = .next (s.latch .stackOverflow) := by
  rw [exec, execCal, push_full h]

theorem exec_pop_live (h0 : 0 < s.sp.toNat) (h : s.sp.toNat ≤ s.cfg.stackSize) (rd : Reg) :
    exec (.pop rd) s =
      .next ((s.writeSp (s.sp.toNat - 1)).writeReg rd (s.readStack (s.sp.toNat - 1)).toNat) := by
  rw [exec, execPop, pop_live h0 (by omega)]

theorem exec_pop_empty (h : s.sp.toNat = 0) (rd : Reg) :
    exec (.pop rd) s = .next (s.latch .stackUnderflow) := by
  rw [exec, execPop, pop_empty h]

theorem exec_ret_live (h0 : 0 < s.sp.toNat) (h : s.sp.toNat ≤ s.cfg.stackSize) :
    exec .ret s = .next ((s.writeSp (s.sp.toNat - 1)).writeIp (s.readStack (s.sp.toNat - 1)).toNat) := by
  rw [exec, execRet, pop_live h0 (by omega)]

theorem exec_ret_empty (h : s.sp.toNat = 0) : exec .ret s = .next (s.latch .stackUnderflow) := by
  rw [exec, execRet, pop_empty h]

/-- A stack write changes no other cell (R81). -/
theorem readStack_writeStack_ne {a b : Nat} (h : b ≠ a) (s : State) (v : Int) :
    (s.writeStack a v).readStack b = s.readStack b := Memory.read_write_ne h _ _

/-- A stack cell reads as the word written, where the stack keeps its canonical form (R81). -/
theorem readStack_writeStack_word (h : s.stack.wf) (a : Nat) (w : Word) : (s.writeStack a w.toNat).readStack a = w :=
  (Memory.read_write_same h _ _).trans (wrap_word w)

end

/-- Settles O13, by a push with room and a push onto a full stack. -/
theorem pshPushesOrOverflows : Obligations.PshPushesOrOverflows := by
  intro rs s
  refine ⟨fun hroom => ?_, fun hfull => faultsWith_of_latch (exec_psh_full hfull rs)⟩
  exact ⟨_, exec_psh_room hroom rs, rfl, wrap_succ s.sp, fun hwf => readStack_writeStack_word hwf _ _,
    fun j hj => readStack_writeStack_ne hj s _⟩

/-- Settles O14, by a pop of a live entry and a pop of an empty stack. -/
theorem popPopsOrUnderflows : Obligations.PopPopsOrUnderflows := by
  intro rd s
  refine ⟨fun h0 hlive => ?_, fun hempty => faultsWith_of_latch (exec_pop_empty hempty rd)⟩
  exact ⟨_, exec_pop_live h0 hlive rd, rfl, wrap_pred s.sp, readReg_writeReg_word _ rd _,
    fun r hr => readReg_writeReg_ne hr _ _⟩

/-- Settles O15, by a push of `IP` with room and onto a full stack. -/
theorem calPushesReturnAddressAndJumps : Obligations.CalPushesReturnAddressAndJumps := by
  intro a s
  refine ⟨fun hroom => ?_, fun hfull => faultsWith_of_latch (exec_cal_full hfull a)⟩
  exact ⟨_, exec_cal_room hroom a, rfl, writeIp_zextW_ip_toNat _ a, wrap_succ s.sp,
    fun hwf => readStack_writeStack_word hwf _ _, fun j hj => readStack_writeStack_ne hj s _⟩

/-- Settles O16, by a pop of a live entry and a pop of an empty stack. -/
theorem retPopsIntoIp : Obligations.RetPopsIntoIp := by
  intro s
  refine ⟨fun h0 hlive => ?_, fun hempty => faultsWith_of_latch (exec_ret_empty hempty)⟩
  exact ⟨_, exec_ret_live h0 hlive, rfl, wrap_pred s.sp, wrap_word _⟩

/-- Settles O48: the return address stands in the top entry, which is live in any state with that `SP`. -/
theorem callThenReturnRestoresIp : Obligations.CallThenReturnRestoresIp := by
  intro a s hcfg hwf hroom
  obtain ⟨s1, hcal, hframe, -, hsp, hcell, -⟩ := (calPushesReturnAddressAndJumps a s).1 hroom
  refine ⟨s1, hcal, fun s2 hsp2 hcfg2 htop => ?_⟩
  have hcfg1 : s1.cfg = s.cfg := by rw [hframe]
  have hn : s2.sp.toNat = s.sp.toNat + 1 := by rw [hsp2, hsp, sp_succ_toNat hcfg hroom]
  obtain ⟨t, hret, -, htsp, htip⟩ := (retPopsIntoIp s2).1 (by omega) (by rw [hcfg2, hcfg1]; omega)
  refine ⟨t, hret, ?_, ?_⟩
  · rw [htip, hsp2, htop, ← hsp2, hn, Nat.add_sub_cancel, hcell hwf]
  · rw [htsp, hsp2, hsp, BitVec.add_sub_cancel]

/-- Settles O49: the value pushed stands in the top entry. -/
theorem pushThenPopReturnsValue : Obligations.PushThenPopReturnsValue := by
  intro rs rd s hcfg hwf hroom
  obtain ⟨s1, hpsh, hframe, hsp, hcell, -⟩ := (pshPushesOrOverflows rs s).1 hroom
  have hcfg1 : s1.cfg = s.cfg := by rw [hframe]
  have hn : s1.sp.toNat = s.sp.toNat + 1 := by rw [hsp, sp_succ_toNat hcfg hroom]
  obtain ⟨t, hpop, -, htsp, hval, -⟩ := (popPopsOrUnderflows rd s1).1 (by omega) (by rw [hcfg1]; omega)
  refine ⟨s1, t, hpsh, hpop, ?_, ?_⟩
  · rw [hval, hn, Nat.add_sub_cancel, hcell hwf]
  · rw [htsp, hsp, BitVec.add_sub_cancel]

theorem pushTimes_succ_of_next {s t : State} {r : Reg} (h : exec (.psh r) s = .next t) (n : Nat) :
    pushTimes r (n + 1) s = pushTimes r n t := by
  rw [pushTimes, h]

/-- One push after `n` pushes that succeed. -/
theorem pushTimes_succ_last {s t : State} {r : Reg} {n : Nat} (h : pushTimes r n s = .next t) :
    pushTimes r (n + 1) s = pushTimes r 1 t := by
  induction n generalizing s with
  | zero =>
    cases h
    rfl
  | succ n ih =>
    cases hexec : exec (.psh r) s with
    | next u =>
      rw [pushTimes_succ_of_next hexec] at h ⊢
      exact ih h
    | fault f => simp [pushTimes, hexec] at h
    | refused f => simp [pushTimes, hexec] at h

/-- While there is room, pushes succeed and `SP` counts them (R83 (d)). -/
theorem pushTimes_room {r : Reg} {n : Nat} {s : State} (hcfg : s.cfg.wf) (h : s.sp.toNat + n ≤ s.cfg.stackSize - 1) :
    ∃ t, pushTimes r n s = .next t ∧ t.sp.toNat = s.sp.toNat + n ∧ t.status = s.status ∧ t.cfg = s.cfg := by
  induction n generalizing s with
  | zero => exact ⟨s, rfl, rfl, rfl, rfl⟩
  | succ n ih =>
    obtain ⟨u, hpsh, hframe, hsp, -⟩ := (pshPushesOrOverflows r s).1 (by omega)
    have hn : u.sp.toNat = s.sp.toNat + 1 := by rw [hsp, sp_succ_toNat hcfg (by omega)]
    have hc : u.cfg = s.cfg := by rw [hframe]
    have hst : u.status = s.status := by rw [hframe]
    obtain ⟨t, ht, htsp, htst, htc⟩ := ih (s := u) (hc ▸ hcfg) (by rw [hc]; omega)
    exact ⟨t, by rw [pushTimes_succ_of_next hpsh, ht], by omega, htst.trans hst, htc.trans hc⟩

/-- Settles O50: the pushes that have room, then one onto the full stack. -/
theorem pushesFillStackThenOverflow : Obligations.PushesFillStackThenOverflow := by
  intro r s hcfg hs hsp
  have hsp0 : s.sp.toNat = 0 := by rw [hsp]; rfl
  have hfill (n : Nat) (hn : n ≤ s.cfg.stackSize - 1) :
      ∃ t, pushTimes r n s = .next t ∧ t.sp.toNat = n ∧ t.status = 0 ∧ t.cfg = s.cfg := by
    obtain ⟨t, ht, htsp, htst, htc⟩ := pushTimes_room (r := r) hcfg (n := n) (by omega)
    exact ⟨t, ht, by omega, htst.trans hs, htc⟩
  refine ⟨fun n hn => ?_, ?_⟩
  · obtain ⟨t, ht, htsp, htst, -⟩ := hfill n hn
    exact ⟨t, ht, htsp, htst⟩
  · obtain ⟨t, ht, htsp, htst, htc⟩ := hfill (s.cfg.stackSize - 1) le_rfl
    have ⟨_, ⟨hpos, _⟩, _⟩ := hcfg
    have hsize : s.cfg.stackSize - 1 + 1 = s.cfg.stackSize := Nat.sub_add_cancel hpos
    have hpsh : exec (.psh r) t = .next (t.latch .stackOverflow) := exec_psh_full (by rw [htc, htsp]) r
    refine ⟨t.latch .stackOverflow, ?_, htsp, ?_⟩
    · rw [← hsize, pushTimes_succ_last ht, pushTimes_succ_of_next hpsh, pushTimes]
    · rw [latch_status_of_zero htst]
      rfl

/-- What leaves `STATUS` 0 and `IP` outside the program is a transfer out of it: the next fetch faults (R89). -/
theorem transfersOutOfProgram_of_exec {i : Instr} {s t : State} (h : exec i s = .next t) (hs : t.status = 0)
    {target : Nat} (hip : t.ip.toNat = target) (hout : t.cfg.progSize ≤ target) :
    TransfersOutOfProgram i s target := by
  subst hip
  refine ⟨t, t.latch .fetchOutOfRange, h, hs, rfl, ?_, raised_latch t _, rfl⟩
  rw [step, issue_outside (running_of_zero hs) hout]

/-- Settles O52, by the three transfers, each of which completes with its target in `IP`. -/
theorem transferOutsideProgramFaultsAtFetch : Obligations.TransferOutsideProgramFaultsAtFetch := by
  intro s hs
  refine ⟨fun a hroom ha => ?_, fun h0 hlive htop => ?_, fun rd a hlt ha => ?_⟩
  · exact transfersOutOfProgram_of_exec (exec_cal_room hroom a) hs (writeIp_zextW_ip_toNat _ a) ha
  · exact transfersOutOfProgram_of_exec (exec_ret_live h0 hlive) hs (congrArg BitVec.toNat (wrap_word _)) htop
  · exact transfersOutOfProgram_of_exec (exec_jlt_of_lt hlt a) hs (writeIp_zextW_ip_toNat s a) ha

end Sys2Proof.Machine

/-! Reset and the host's side (70_reset_and_hazards.md R123, R124, 44_output.md R103). -/

namespace Sys2Proof.Machine

theorem applyReset_readReg (s : State) (cells : Memory) (r : Reg) : (s.applyReset cells).readReg r = 0 := by
  cases r <;> rfl

/-- After the reset transaction the core is running. -/
theorem running_applyReset (s : State) (cells : Memory) : (s.applyReset cells).running = true :=
  running_of_zero rfl

/-- Settles O38, by the fields of the launch state. -/
theorem resetGivesResetValues : Obligations.ResetGivesResetValues := by
  intro s cells
  exact ⟨s.applyReset cells, rfl, applyReset_readReg s cells, rfl, rfl, rfl, rfl, fun _ => rfl, rfl, rfl,
    running_applyReset s cells⟩

/-- Settles O39, by the step of a running core at `IP` 0. -/
theorem firstStepFetchesAtZero : Obligations.FirstStepFetchesAtZero := by
  intro s cells h
  exact stepRunsDecodedInstruction (s.applyReset cells) _ (running_applyReset s cells) h rfl

/-- The one text the source fixes (R103). -/
theorem render_decimal_eight : Config.render 0 8 = "8" := if_pos ⟨rfl, rfl⟩

/-- Settles O57, by the one fixed text. -/
theorem decimalEightPrintsEight : Obligations.DecimalEightPrintsEight := by
  intro s h
  rw [State.outText, h, List.map_singleton, render_decimal_eight]
  rfl

end Sys2Proof.Machine

/-! Dead stack cells (10_state.md R20): no rule reads a cell at `SP` or above, so two states that differ there only step alike.
The second state is written `{ s with stack := m }` throughout. -/

namespace Sys2Proof.Machine

/-- Where the first answer is a next state, the second is one that differs from it in dead cells only. -/
def AnswersAlike (x y : Result) : Prop := ∀ t, x = .next t → ∃ t', y = .next t' ∧ SameButDeadCells t t'

theorem AnswersAlike.next {t t' : State} (h : SameButDeadCells t t') : AnswersAlike (.next t) (.next t') := by
  intro u hu
  cases hu
  exact ⟨t', rfl, h⟩

theorem SameButDeadCells.exists_eq {s s' : State} (h : SameButDeadCells s s') : ∃ m, s' = { s with stack := m } :=
  ⟨_, h.1⟩

/-- An update of anything but the stack and `SP` keeps the difference in dead cells. -/
theorem SameButDeadCells.of_stack_sp_eq {s t : State} {m : Memory} (h : SameButDeadCells s { s with stack := m })
    (hstack : t.stack = s.stack) (hsp : t.sp = s.sp) : SameButDeadCells t { t with stack := m } := by
  obtain ⟨-, hwf, hwf', hlive⟩ := h
  refine ⟨rfl, hstack ▸ hwf, hwf', fun j hj => ?_⟩
  rw [State.readStack, State.readStack, hstack]
  exact hlive j (hsp ▸ hj)

theorem SameButDeadCells.writeIp {s s' : State} (h : SameButDeadCells s s') (v : Int) :
    SameButDeadCells (s.writeIp v) (s'.writeIp v) := by
  obtain ⟨m, rfl⟩ := h.exists_eq
  exact h.of_stack_sp_eq (t := s.writeIp v) rfl rfl

theorem SameButDeadCells.writeReg {s s' : State} (h : SameButDeadCells s s') (r : Reg) (v : Int) :
    SameButDeadCells (s.writeReg r v) (s'.writeReg r v) := by
  obtain ⟨m, rfl⟩ := h.exists_eq
  exact h.of_stack_sp_eq (t := s.writeReg r v) rfl rfl

section

variable {s : State} {m : Memory} (h : SameButDeadCells s { s with stack := m })

include h

/-- A push writes both stacks alike, so the cell it makes live is the same in both. -/
theorem SameButDeadCells.pushed (v : Int) :
    SameButDeadCells ((s.writeStack s.sp.toNat v).writeSp (s.sp.toNat + 1))
      ((({ s with stack := m } : State).writeStack s.sp.toNat v).writeSp (s.sp.toNat + 1)) := by
  obtain ⟨-, hwf, hwf', hlive⟩ := h
  refine ⟨rfl, Memory.wf_write hwf _ _, Memory.wf_write hwf' _ _, fun j hj => ?_⟩
  have hle : j ≤ s.sp.toNat := by
    rw [writeSp_sp, wrap_succ, BitVec.toNat_add] at hj
    exact Nat.le_of_lt_succ (hj.trans_le (Nat.mod_le _ _))
  rcases Nat.lt_or_eq_of_le hle with hlt | rfl
  · exact (Memory.read_write_ne hlt.ne _ _).trans ((hlive j hlt).trans (Memory.read_write_ne hlt.ne _ _).symm)
  · exact (Memory.read_write_same hwf' _ _).trans (Memory.read_write_same hwf _ _).symm

/-- A pop makes a cell dead, and changes no cell. -/
theorem SameButDeadCells.popped (h0 : 0 < s.sp.toNat) :
    SameButDeadCells (s.writeSp (s.sp.toNat - 1)) (({ s with stack := m } : State).writeSp (s.sp.toNat - 1)) := by
  obtain ⟨-, hwf, hwf', hlive⟩ := h
  refine ⟨rfl, hwf, hwf', fun j hj => hlive j ?_⟩
  rw [writeSp_sp, wrap_pred, sp_pred_toNat h0] at hj
  omega

/-- The fault of both states is the same. -/
theorem SameButDeadCells.latched (c : Cause) : SameButDeadCells (s.latch c) (({ s with stack := m } : State).latch c) :=
  h.of_stack_sp_eq (t := s.latch c) rfl rfl

theorem push_answersAlike {v : Int} {rest : State → Result}
    (hrest : ∀ u u', SameButDeadCells u u' → AnswersAlike (rest u) (rest u')) :
    AnswersAlike (push v s rest) (push v { s with stack := m } rest) := by
  intro t ht
  rcases push_cases ht with ⟨hfull, rfl⟩ | ⟨hroom, ht⟩
  · exact ⟨_, push_full (s := { s with stack := m }) hfull v rest, h.latched _⟩
  · rw [push_room (s := { s with stack := m }) hroom]
    exact hrest _ _ (h.pushed v) t ht

/-- The popped entry is live, so both states pop the same value. -/
theorem pop_answersAlike {rest : Word → State → Result}
    (hrest : ∀ v u u', SameButDeadCells u u' → AnswersAlike (rest v u) (rest v u')) :
    AnswersAlike (pop s rest) (pop { s with stack := m } rest) := by
  intro t ht
  rcases pop_cases ht with ⟨hempty, rfl⟩ | ⟨hlive, hcell, ht⟩
  · exact ⟨_, pop_empty (s := { s with stack := m }) hempty rest, h.latched _⟩
  · have ⟨_, _, _, hcells⟩ := h
    have htop : s.sp.toNat - 1 < s.sp.toNat := by omega
    rw [pop_live (s := { s with stack := m }) hlive hcell, hcells _ htop]
    exact hrest _ _ _ (h.popped hlive) t ht

theorem withAddress_answersAlike (a : BitVec 10) {rest rest' : Nat → Result}
    (hrest : ∀ n, AnswersAlike (rest n) (rest' n)) :
    AnswersAlike (withAddress a s rest) (withAddress a { s with stack := m } rest') := by
  intro t ht
  rcases withAddress_cases ht with ⟨hout, rfl⟩ | ⟨hin, ht⟩
  · exact ⟨_, withAddress_outside (s := { s with stack := m }) hout rest', h.latched _⟩
  · rw [withAddress_inside (s := { s with stack := m }) hin]
    exact hrest _ t ht

/-- An execute cannot see dead cells: only a pop reads the stack, and it reads a live cell. -/
theorem exec_answersAlike (i : Instr) : AnswersAlike (exec i s) (exec i { s with stack := m }) := by
  have next {t : State} (hstack : t.stack = s.stack) (hsp : t.sp = s.sp) :
      AnswersAlike (.next t) (.next { t with stack := m }) := .next (h.of_stack_sp_eq hstack hsp)
  cases i with
  | cal a => exact push_answersAlike h fun _ _ hu => .next (hu.writeIp _)
  | psh rs => exact push_answersAlike h fun _ _ => .next
  | ret => exact pop_answersAlike h fun v _ _ hu => .next (hu.writeIp v.toNat)
  | pop rd => exact pop_answersAlike h fun v _ _ hu => .next (hu.writeReg rd v.toNat)
  | ldr rd a =>
    rw [exec_ldr_eq, exec_ldr_eq]
    exact withAddress_answersAlike h a fun _ => next rfl rfl
  | ldm rd a =>
    rw [exec_ldm_eq, exec_ldm_eq]
    exact withAddress_answersAlike h a fun _ => next rfl rfl
  | athDiv rd rs mode =>
    by_cases hzero : (s.readReg rd).toNat = 0
    · rw [exec_athDiv_of_zero hzero, exec_athDiv_of_zero (s := { s with stack := m }) hzero]
      exact next rfl rfl
    · rw [exec_athDiv_of_ne hzero, exec_athDiv_of_ne (s := { s with stack := m }) hzero]
      exact next rfl rfl
  | jlt rd a =>
    rcases Nat.lt_or_ge (s.readReg .a).toNat (s.readReg rd).toNat with hlt | hle
    · rw [exec_jlt_of_lt hlt, exec_jlt_of_lt (s := { s with stack := m }) hlt]
      exact next rfl rfl
    · rw [exec_jlt_of_le hle, exec_jlt_of_le (s := { s with stack := m }) hle]
      exact next rfl rfl
  | mov | ldv | athAdd | athSub | athMul | sft | out | hlt | unknown13 | unknown14 | unknown15 => exact next rfl rfl

end

/-- Settles O37, by the three cases of a step: none of the check, the fetch and the advance reads the stack. -/
theorem deadStackCellsAreUnobservable : Obligations.DeadStackCellsAreUnobservable := by
  intro s s' t hsame ht
  obtain ⟨m, rfl⟩ := hsame.exists_eq
  rcases step_cases s with ⟨hr, hstep⟩ | ⟨hr, hi, hstep⟩ | ⟨hr, hi, hstep⟩
  · cases hstep.symm.trans ht
    exact ⟨_, by rw [step, issue_stopped (s := { s with stack := m }) hr], hsame⟩
  · cases hstep.symm.trans ht
    exact ⟨_, by rw [step, issue_outside (s := { s with stack := m }) hr hi], hsame.latched _⟩
  · rw [step_eq_exec (s := { s with stack := m }) hr hi]
    exact exec_answersAlike (s := s.advance) (hsame.of_stack_sp_eq rfl rfl) _ t (hstep ▸ ht)

end Sys2Proof.Machine
